-- ==== Sys2Proof/Config.lean ====
section
/-! DEFINITION. The implementation parameters of one instance of the core (spec 00_scope.md R6, R7). The spec
leaves all four OPEN (92_eei_decisions.md D1, D10) and says that the model takes them as an argument: here
they are plain data, carried by the machine's state and changed by nothing, so that a statement about every
state is a statement about every choice of them. -/

namespace Sys2Proof

/-- The parameters of R6. They never change while the machine exists. -/
structure Config where
  /-- `N_RESERVED`: reserved register slots at the bottom of the register file. -/
  nReserved : Nat
  /-- `N_GPR`: general-purpose registers. -/
  nGpr : Nat
  /-- `STACK_CAP`: 64-bit cells of the operand stack. -/
  stackCap : Nat
  /-- `STEP_LIMIT`: `none`, or a ceiling on the number of steps. -/
  stepLimit : Option Nat
  deriving DecidableEq, Repr

/-- `N_REGS`, the length of the physical register file (R7). -/
def Config.nRegs (c : Config) : Nat := c.nReserved + c.nGpr

/-- `CFG_T` of R8: `N_RESERVED = 4`, `N_GPR = 8`, `STACK_CAP = 4`, `STEP_LIMIT = none`.
DESIGN CHOICE (log 1), unsafe: R8 gives it for test vectors only and says it is no property of the hardware;
it is used by `State.reset` and by the tests, and by no other definition of the model. -/
def Config.cfgT : Config := { nReserved := 4, nGpr := 8, stackCap := 4, stepLimit := none }

end Sys2Proof
end

