-- ==== Sys2Proof/Word.lean ====
section
/-! DEFINITION. The fixed widths of the Acorn bytecode core (spec 00_scope.md R7, R9): every register and stack
cell is a `u64`, every instruction operand a `u64` except the `u16` of `OutputRegister`, and the encoded
program is a sequence of `u8`. All quantities are unsigned; comparisons are made on `toNat`, as unbounded
integers (R9). -/

namespace Sys2Proof

/-- `u64` (R7, R9): a register, a stack cell, a 64-bit operand. -/
abbrev Word := BitVec 64

/-- `u16` (R7, R9): the operand of `OutputRegister` and the register index of an emit event. -/
abbrev Half := BitVec 16

/-- `u8` (R9): one byte of an encoded program. -/
abbrev Byte := BitVec 8

end Sys2Proof
end

