-- ==== Sys2Proof/Syntax.lean ====
section
/-! DEFINITION. The seven instructions of Acorn bytecode (spec 30_encoding.md R76), one constructor per row of
opcode_table.json, operands in encoding order (R74, R88). Operands carry the width of their field, so every
value of this type is a legal decoded instruction: R82 accepts every operand value, and register indices and
jump targets are checked only when the instruction executes. -/

namespace Sys2Proof

/-- A decoded instruction (R33, R76). Register operands are logical GPR indices (R22). -/
inductive Instr where
  /-- Tag `0x00`, R110: copy `gpr[src]` to `gpr[dst]`. -/
  | moveRegister (src dst : Word)
  /-- Tag `0x01`, R111: load the constant `value` into `gpr[dst]`; value first, destination second (C7). -/
  | moveImmediate (value dst : Word)
  /-- Tag `0x02`, R120: store `gpr[reg]` on top of the operand stack. -/
  | push (reg : Word)
  /-- Tag `0x03`, R121: remove the top of the operand stack into `gpr[reg]`. -/
  | pop (reg : Word)
  /-- Tag `0x04`, R130: continue at instruction index `target`. -/
  | jump (target : Word)
  /-- Tag `0x05`, R140: emit `(index, gpr[index])`. -/
  | outputRegister (index : Half)
  /-- Tag `0x06`, R131: stop cleanly. -/
  | halt
  deriving DecidableEq, Repr

/-- A program (R33): decoded instructions, addressed by a zero-based instruction index. -/
abbrev Program := List Instr

end Sys2Proof
end

