-- ==== Sys2Proof/WellFormed.lean ====
section
/-! DEFINITION. The checks on syntax and parameters. An instruction needs none beyond its type: its operands are
`u64` or `u16` by construction and every such value is valid (R82). What can be ill formed is a program that
is too long (R33, R87) and a choice of parameters outside the constraints of R6. -/

namespace Sys2Proof

/-- The largest program length, `2^64 - 1` (R33, decision D7). -/
def maxProgramLength : Nat := 2 ^ 64 - 1

/-- R33 and R87: a program that `encode` accepts. The operand clause of R87 holds by the type `Instr`. -/
abbrev Program.WellFormed (p : Program) : Prop := p.length ≤ maxProgramLength

/-- The constraints of R6 on the parameters (decision D1). -/
abbrev Config.WellFormed (c : Config) : Prop :=
  2 ≤ c.nReserved ∧ c.nReserved + c.nGpr ≤ 2 ^ 64 ∧ c.stackCap ≤ 2 ^ 64 - 1 ∧
    c.stepLimit.all (fun m => decide (m ≤ 2 ^ 64 - 1)) = true

end Sys2Proof
end

