-- ==== Sys2Proof/Decode.lean ====
section
/-! DEFINITION. The byte format of a program (spec 30_encoding.md): the opcode map (R76), the record formats
(R74), the decoder (R79) with its three named failures (R80), and after it the encoder (R84). Every concrete
byte of the format is the spec's own decision D2 to D6. -/

namespace Sys2Proof

/-! ## Little-endian fields -/

/-- `le(b, 0, n)` of R9 for the whole list `b`: the first byte is the least significant (R73). -/
def leValue : List Byte → Nat
  | [] => 0
  | b :: bs => b.toNat + 256 * leValue bs

/-- The `n` little-endian bytes of `v` (R73); bits of `v` above them are dropped. -/
def leBytes : Nat → Nat → List Byte
  | 0, _ => []
  | n + 1, v => BitVec.ofNat 8 v :: leBytes n (v / 256)

/-- The `u64` field at byte offset `k` of a record's operand bytes, as it stands (R77). -/
def field64 (ops : List Byte) (k : Nat) : Word := BitVec.ofNat 64 (leValue ((ops.drop k).take 8))

/-- The `u16` field at byte offset `k` of a record's operand bytes, as it stands (R77). -/
def field16 (ops : List Byte) (k : Nat) : Half := BitVec.ofNat 16 (leValue ((ops.drop k).take 2))

/-! ## The opcode map -/

/-- The seven variants (R76). -/
inductive Opcode where
  | moveRegister
  | moveImmediate
  | push
  | pop
  | jump
  | outputRegister
  | halt
  deriving DecidableEq, Repr

/-- The tag byte of a variant (R76, decision D3). -/
def tagOf : Opcode → Byte
  | .moveRegister => 0x00
  | .moveImmediate => 0x01
  | .push => 0x02
  | .pop => 0x03
  | .jump => 0x04
  | .outputRegister => 0x05
  | .halt => 0x06

/-- The variant a tag byte names; `0x07` to `0xFF` name none (R78). -/
def opcodeOfTag (tag : Byte) : Option Opcode :=
  if tag = 0x00 then some .moveRegister
  else if tag = 0x01 then some .moveImmediate
  else if tag = 0x02 then some .push
  else if tag = 0x03 then some .pop
  else if tag = 0x04 then some .jump
  else if tag = 0x05 then some .outputRegister
  else if tag = 0x06 then some .halt
  else none

/-- Operand bytes after the tag: formats RR and IR 16, R and J 8, O 2, N none (R74, R75). -/
def operandBytes : Opcode → Nat
  | .moveRegister => 16
  | .moveImmediate => 16
  | .push => 8
  | .pop => 8
  | .jump => 8
  | .outputRegister => 2
  | .halt => 0

/-- The instruction a variant makes of its operand bytes, operands in constructor order (R74, R77). -/
def assemble (op : Opcode) (ops : List Byte) : Instr :=
  match op with
  | .moveRegister => .moveRegister (field64 ops 0) (field64 ops 8)
  | .moveImmediate => .moveImmediate (field64 ops 0) (field64 ops 8)
  | .push => .push (field64 ops 0)
  | .pop => .pop (field64 ops 0)
  | .jump => .jump (field64 ops 0)
  | .outputRegister => .outputRegister (field16 ops 0)
  | .halt => .halt

/-! ## The decoder -/

/-- The three ways a byte stream can be malformed (R80). None of them is a machine fault (R179). -/
inductive DecodeError where
  /-- The stream ended before the count, before a record's tag, or inside a record's operands. -/
  | truncated
  /-- A byte at a tag position is above `0x06`. -/
  | unknownTag
  /-- All records were decoded and bytes remain. -/
  | trailingBytes
  deriving DecidableEq, Repr

/-- The load-result code of a failure (R80); 0 is success. -/
def loadCode : Option DecodeError → BitVec 2
  | none => 0
  | some .truncated => 1
  | some .unknownTag => 2
  | some .trailingBytes => 3

/-- One record off the front of a stream (the loop body of R79): the tag test comes before the length test. -/
def decodeRecord : List Byte → Except DecodeError (Instr × List Byte)
  | [] => .error .truncated
  | tag :: rest =>
    match opcodeOfTag tag with
    | none => .error .unknownTag
    | some op =>
      if rest.length < operandBytes op then .error .truncated
      else .ok (assemble op (rest.take (operandBytes op)), rest.drop (operandBytes op))

/-- `n` records off the front of a stream, packed end to end (R72, R79). -/
def decodeRecords : Nat → List Byte → Except DecodeError (Program × List Byte)
  | 0, bs => .ok ([], bs)
  | n + 1, bs =>
    match decodeRecord bs with
    | .error e => .error e
    | .ok (i, rest) =>
      match decodeRecords n rest with
      | .error e => .error e
      | .ok (p, rest') => .ok (i :: p, rest')

/-- `decode(b)` of R79: an 8-byte count, that many records, the end of the stream; the first failure met front
to back is reported, and no part of a program is produced with it (R81). -/
def decode (b : List Byte) : Except DecodeError Program :=
  if b.length < 8 then .error .truncated
  else
    match decodeRecords (leValue (b.take 8)) (b.drop 8) with
    | .error e => .error e
    | .ok (p, []) => .ok p
    | .ok (_, _ :: _) => .error .trailingBytes

/-- The longest record: 17 bytes (R75). -/
def maxRecordBytes : Nat := 17

/-- The instruction the decoder reads from a record whose bits are `w` (bit 0 the least significant bit of the
tag byte, R74), the bits above `nbits` being zero. -/
def decodeTableWord (nbits w : Nat) : Option Instr :=
  match decodeRecord (leBytes maxRecordBytes (w % 2 ^ nbits)) with
  | .ok (i, _) => some i
  | .error _ => none

/-! ## The encoder -/

/-- The variant of an instruction. -/
def opcodeOf : Instr → Opcode
  | .moveRegister _ _ => .moveRegister
  | .moveImmediate _ _ => .moveImmediate
  | .push _ => .push
  | .pop _ => .pop
  | .jump _ => .jump
  | .outputRegister _ => .outputRegister
  | .halt => .halt

/-- The operand fields of an instruction's record, little-endian, in constructor order, with no padding
(R72, R73, R74). -/
def encodeOperands : Instr → List Byte
  | .moveRegister src dst => leBytes 8 src.toNat ++ leBytes 8 dst.toNat
  | .moveImmediate value dst => leBytes 8 value.toNat ++ leBytes 8 dst.toNat
  | .push reg => leBytes 8 reg.toNat
  | .pop reg => leBytes 8 reg.toNat
  | .jump target => leBytes 8 target.toNat
  | .outputRegister index => leBytes 2 index.toNat
  | .halt => []

/-- The record of one instruction: its tag byte, then its operand fields (R72, R84). -/
def encodeInstr (i : Instr) : List Byte := tagOf (opcodeOf i) :: encodeOperands i

/-- `encode(prog)` of R84: the 8-byte count, then the records in program order. -/
def encode (p : Program) : List Byte := leBytes 8 p.length ++ p.flatMap encodeInstr

end Sys2Proof
end

