-- ==== Sys2Proof/Machine/State.lean ====
section
/-! DEFINITION. The architectural state of the core (spec 10_state.md), as plain data, and its reset value (R44).
R46 names the whole of it: the register file `x`, the stack `stk`, `status`, `steps` and `out`, together with
the program and the parameters of the step relation. The load in progress of the signal binding (R161) is the
one piece of state another rule adds. -/

namespace Sys2Proof.Machine

open Sys2Proof

/-- The five fault reasons of R32 and R171. They are values of the machine's own `status` register: a step that
raises one answers a next state (R170, R176). -/
inductive FaultReason where
  /-- `IP >= L` at the start of a step (R102). -/
  | instructionPointerOutOfBounds
  /-- `Push` with `SP == STACK_CAP` (R120). -/
  | stackOverflow
  /-- `Pop` with `SP == 0` (R121). -/
  | stackUnderflow
  /-- A register operand `>= N_GPR` (R38). -/
  | registerIndexOutOfRange
  /-- `STEP_LIMIT = some(M)` and `steps >= M` (R101). -/
  | stepLimitExceeded
  deriving DecidableEq, Repr

/-- The execution state register (R32). -/
inductive Status where
  | running
  | halted
  | faulted (reason : FaultReason)
  deriving DecidableEq, Repr

/-- One event `emit(register_index, value)` of the output channel (R35, R140). -/
structure EmitEvent where
  index : Half
  value : Word
  deriving DecidableEq, Repr

/-- Where the signal binding's `Load` stream stands (R161): bytes are in stream order. After the last byte one
more clock edge commits the load (R207). DEDUCED (log 9), safe: the bytes stand for the decoder's shadow of the
program store, which nothing reads before the load finishes. -/
inductive Loader where
  /-- No load is in progress. -/
  | idle
  /-- `ld_valid` seen, `ld_last` not yet. -/
  | receiving (bytes : List Byte)
  /-- The whole stream has arrived; the next edge finishes the load. -/
  | committing (bytes : List Byte)
  deriving DecidableEq, Repr

/-- The cells of the operand stack that do not hold the reset value 0, as (cell index, value) pairs. The unit is
the 64-bit cell, the only unit the stack has (R29, R50, R52). DESIGN CHOICE (log 2), safe. Its canonical form is
`Memory.wf`. -/
abbrev Memory := List (Nat × Word)

/-- The complete machine state (R46). -/
structure State where
  /-- The parameters `N_RESERVED`, `N_GPR`, `STACK_CAP`, `STEP_LIMIT` of this instance (R6). -/
  cfg : Config
  /-- The program store `prog`; its length is `L` (R33). -/
  prog : Program
  /-- The physical register file `x[0] .. x[N_REGS - 1]` (R21): IP, SP, the reserved slots, the GPRs. -/
  x : List Word
  /-- The operand stack `stk` (R29). -/
  stk : Memory
  /-- The execution state register (R32). -/
  status : Status
  /-- Steps counted since reset, a natural number (R34). -/
  steps : Nat
  /-- The output trace `out`, oldest event first (R35). -/
  out : List EmitEvent
  /-- The load in progress at the signal binding (R161). -/
  loader : Loader
  deriving DecidableEq, Repr

/-- Why a step can stop outside the machine's own fault model. The spec's faults are not here: they are
`Status.faulted` in a next state. -/
inductive Fault where
  /-- Raised by a stack read or write at a cell index at or above `STACK_CAP`, a cell that does not exist (R55).
  Safe (DESIGN CHOICE, log 3): R55 says such an index is never formed, and from a state that meets the invariant of Safety.lean no
  step raises it; it stops the machine in states that no run reaches. -/
  | stackCellAbsent
  deriving DecidableEq, Repr

/-- Why an instruction has no meaning in this model. -/
inductive Refusal where
  /-- Answered only by an arm of `exec` for an instruction without a meaning yet. No arm answers it now. Safe:
  nothing can be proved of what such an instruction does. -/
  | notModelled (mnemonic : String)
  deriving DecidableEq, Repr

/-- Why an access does not deliver: the machine raises one of its own faults (R39 to R42), or the model stops. -/
inductive Stop where
  /-- `raise Fault(r)` of R10. -/
  | raised (r : FaultReason)
  /-- A stop of the model, not of the machine. -/
  | stuck (f : Fault)
  deriving DecidableEq, Repr

/-- The state after reset with program `p` (R44, R200): Running, every register 0 (so IP = SP = 0), every stack
cell 0 (nothing listed), no steps, no output. It does not depend on any earlier state. No load is in progress:
DESIGN CHOICE (log 10), since no reset table of the spec names the load stream of R161. -/
def State.initial (cfg : Config) (p : Program) : State :=
  { cfg := cfg, prog := p, x := List.replicate cfg.nRegs 0, stk := [], status := .running, steps := 0, out := [],
    loader := .idle }

/-- The state at power-on: the reset state with the empty program (R201). -/
def State.powerOn (cfg : Config) : State := State.initial cfg []

/-- The machine right after power-on. The parameters are `CFG_T`, DESIGN CHOICE (log 1); everything else is R44
and R201. -/
def State.reset : State := State.powerOn Config.cfgT

end Sys2Proof.Machine
end

