-- ==== Sys2Proof/Machine/Ops.lean ====
section
/-! DEFINITION. The named operations the machine is built from: the register file and its two control registers
(R10, R25, R27), the operand stack (R10, R29), raising a fault (R10, R170, R176) and the reset that alone leaves
it (R177, R152), and the parts of a step that come before an instruction executes (R101 to R103). -/

namespace Sys2Proof.Machine

open Sys2Proof

/-! ## The physical register file -/

/-- `x[i]` of R10. The index is below `N_REGS` in every use (R23); a position the list does not have, in a state
that breaks the invariant, reads as 0. DESIGN CHOICE (log 4), unsafe in such states only. -/
def State.xread (s : State) (i : Nat) : Word := s.x.getD i 0

/-- `x[i] <- v` of R10. -/
def State.xwrite (s : State) (i : Nat) (v : Word) : State := { s with x := s.x.set i v }

/-- The physical index of IP (R21). -/
def ipIndex : Nat := 0

/-- The physical index of SP (R21). -/
def spIndex : Nat := 1

/-- IP, the instruction pointer, `x[0]` (R25). -/
def State.ip (s : State) : Word := s.xread ipIndex

/-- SP, the stack pointer, `x[1]` (R27). -/
def State.sp (s : State) : Word := s.xread spIndex

/-- `IP <- v` (R10). -/
def State.setIp (s : State) (v : Word) : State := s.xwrite ipIndex v

/-- `SP <- v` (R10). -/
def State.setSp (s : State) (v : Word) : State := s.xwrite spIndex v

/-- `pc <- IP + 1`, the end of the five instructions that advance (R25). -/
def State.advance (s : State) : State := s.setIp (s.ip + 1)

/-! ## The operand stack -/

/-- The value of cell `k`: a cell that is not listed holds its reset value 0 (R44). -/
def Memory.read : Memory → Nat → Word
  | [], _ => 0
  | (a, v) :: m, k => if a = k then v else Memory.read m k

/-- Cell `k` takes the value `v`, every other cell keeps its own. The list stays in canonical form: writing 0
removes the entry. -/
def Memory.write : Memory → Nat → Word → Memory
  | [], k, v => if v = 0 then [] else [(k, v)]
  | (a, w) :: m, k, v =>
    if k < a then (if v = 0 then (a, w) :: m else (k, v) :: (a, w) :: m)
    else if k = a then (if v = 0 then m else (k, v) :: m)
    else (a, w) :: Memory.write m k v

/-- The canonical form: cell indices strictly rising, no entry equal to what an unlisted cell reads as. -/
abbrev Memory.wf (m : Memory) : Prop := m.Pairwise (fun c d => c.1 < d.1) ∧ ∀ c ∈ m, c.2 ≠ 0

/-- Replaces the stack's contents. -/
def State.setStk (s : State) (m : Memory) : State := { s with stk := m }

/-- `MemRead(k, 8)` of R10: the whole of cell `k`. A cell at or above `STACK_CAP` does not exist (R55). -/
def memRead (s : State) (k : Nat) : Except Stop Word :=
  if k < s.cfg.stackCap then .ok (s.stk.read k) else .error (.stuck .stackCellAbsent)

/-- `MemWrite(k, 8, v)` of R10. A cell at or above `STACK_CAP` does not exist (R55). -/
def memWrite (s : State) (k : Nat) (v : Word) : Except Stop State :=
  if k < s.cfg.stackCap then .ok (s.setStk (s.stk.write k v)) else .error (.stuck .stackCellAbsent)

/-! ## Status, output, step counter -/

/-- `status <- st` (R32). -/
def State.setStatus (s : State) (st : Status) : State := { s with status := st }

/-- `emit(i, v)` of R10: one event more at the end of the output trace (R35). -/
def State.emit (s : State) (i : Half) (v : Word) : State := { s with out := s.out ++ [{ index := i, value := v }] }

/-- `steps <- steps + 1` (R100). -/
def State.countStep (s : State) : State := { s with steps := s.steps + 1 }

/-! ## Taking a fault, and what leaves it -/

/-- `raise Fault(r)`, the machine's one kind of exception entry (R10, R170, R176): `status` becomes
`Faulted(r)`; nothing is saved, no mode is switched and control goes nowhere. -/
def raiseFault (r : FaultReason) (s : State) : Host.Outcome State Fault Refusal := .next (s.setStatus (.faulted r))

/-- How an instruction ends, `s` being the state it found: with all its writes, or, if it raised, with none of
them (R10, R104). -/
def finish (s : State) : Except Stop State → Host.Outcome State Fault Refusal
  | .ok t => .next t
  | .error (.raised r) => raiseFault r s
  | .error (.stuck f) => .fault f

/-- The `Reset` transaction (R152, R200): every piece of state at its reset value, the program kept. There is no
return from a fault inside the machine (R177); this and a successful load are the only ways out of one. -/
def hostReset (s : State) : State := State.initial s.cfg s.prog

/-- `Halted` and `Faulted(r)` are terminal (R32). -/
def Status.terminal : Status → Bool
  | .running => false
  | .halted => true
  | .faulted _ => true

/-! ## Before an instruction executes -/

/-- The step ceiling test of R101: `STEP_LIMIT == some(M) and steps >= M`. -/
def State.ceilingReached (s : State) : Bool :=
  match s.cfg.stepLimit with
  | none => false
  | some m => decide (m ≤ s.steps)

/-- The instruction at index IP, or none when `IP >= L`, compared as unbounded integers (R102, R103). -/
def State.fetch (s : State) : Option Instr := s.prog[s.ip.toNat]?

end Sys2Proof.Machine
end

