-- ==== Sys2Proof/Machine/Operands.lean ====
section
/-! DEFINITION. Operand access: the one way an instruction reaches a general-purpose register (R22, R23, R38 to
R40), and the two addressing modes of the operand stack, at SP for a push and at SP - 1 for a pop (R41, R42,
R51). Each access performs its effect or raises, never both. A `u64` or `u16` operand enters as the natural
number it denotes, so no index arithmetic wraps (R23). -/

namespace Sys2Proof.Machine

open Sys2Proof

/-- GPR `j` is physical register `N_RESERVED + j` (R23). -/
def gprIndex (c : Config) (j : Nat) : Nat := c.nReserved + j

/-- `gpr[j]` of R10, defined for `j < N_GPR`. -/
def State.gpr (s : State) (j : Nat) : Word := s.xread (gprIndex s.cfg j)

/-- `gpr_ok(j)` of R38: exactly `j < N_GPR`. -/
def gprOk (c : Config) (j : Nat) : Bool := decide (j < c.nGpr)

/-- The operand test alone, for an instruction that must make it before it touches anything (R121). -/
def requireGpr (s : State) (j : Nat) : Except Stop Unit :=
  if gprOk s.cfg j then .ok () else .error (.raised .registerIndexOutOfRange)

/-- `read_gpr(j)` of R39. -/
def readGpr (s : State) (j : Nat) : Except Stop Word :=
  if gprOk s.cfg j then .ok (s.gpr j) else .error (.raised .registerIndexOutOfRange)

/-- `write_gpr(j, v)` of R40. -/
def writeGpr (s : State) (j : Nat) (v : Word) : Except Stop State :=
  if gprOk s.cfg j then .ok (s.xwrite (gprIndex s.cfg j) v) else .error (.raised .registerIndexOutOfRange)

/-- The control registers of R37. -/
inductive Control where
  | ip
  | sp
  deriving DecidableEq, Repr

/-- `read_control(name)` of R37; it never raises. -/
def readControl (s : State) : Control → Word
  | .ip => s.ip
  | .sp => s.sp

/-- `write_control(name, v)` of R37; it never raises, and the host has no such operation (R156). -/
def writeControl (s : State) (c : Control) (v : Word) : State :=
  match c with
  | .ip => s.setIp v
  | .sp => s.setSp v

/-- `stack_push(v)` of R41: the cell written is the one at the old SP. -/
def stackPush (s : State) (v : Word) : Except Stop State :=
  if s.sp.toNat = s.cfg.stackCap then .error (.raised .stackOverflow)
  else do
    let s1 ← memWrite s s.sp.toNat v
    pure (writeControl s1 .sp (s.sp + 1))

/-- `stack_pop()` of R42: the cell read is the one at the new SP; it keeps its value (R29). -/
def stackPop (s : State) : Except Stop (Word × State) :=
  if s.sp.toNat = 0 then .error (.raised .stackUnderflow)
  else do
    let s1 := writeControl s .sp (s.sp - 1)
    let v ← memRead s1 s1.sp.toNat
    pure (v, s1)

end Sys2Proof.Machine
end

