-- ==== Sys2Proof/Machine/Control.lean ====
section
/-! DEFINITION. Control transfer and halt (spec 43_control.md, R130, R131). Neither raises anything. -/

namespace Sys2Proof.Machine

open Sys2Proof

/-- R130: `Jump(target)`: absolute, not incremented, not checked until the next step. -/
def execJump (target : Word) (s : State) : Host.Outcome State Fault Refusal := .next (writeControl s .ip target)

/-- R131: `Halt`: `status <- Halted` and nothing else; IP stays at the `Halt` (DEDUCED by the spec, log 7; unsafe for
claims about IP after the end should that be wrong). -/
def execHalt (s : State) : Host.Outcome State Fault Refusal := .next (s.setStatus .halted)

end Sys2Proof.Machine
end

