-- ==== Sys2Proof/Machine/Move.lean ====
section
/-! DEFINITION. The move instructions (spec 41_move.md, R110, R111). A meaning starts with the instruction
fetched and the step counted (R100, R108). -/

namespace Sys2Proof.Machine

open Sys2Proof

/-- R110: `MoveRegister(src, dst)`. Both indices are tested before anything is written. -/
def execMoveRegister (src dst : Word) (s : State) : Host.Outcome State Fault Refusal :=
  finish s do
    let v ← readGpr s src.toNat
    let s1 ← writeGpr s dst.toNat v
    pure s1.advance

/-- R111: `MoveImmediate(value, dst)`. The immediate is taken whole. -/
def execMoveImmediate (value dst : Word) (s : State) : Host.Outcome State Fault Refusal :=
  finish s do
    let s1 ← writeGpr s dst.toNat value
    pure s1.advance

end Sys2Proof.Machine
end

