-- ==== Sys2Proof/Machine/Output.lean ====
section
/-! DEFINITION. The output instruction (spec 44_output.md, R140). -/

namespace Sys2Proof.Machine

open Sys2Proof

/-- R140: `OutputRegister(index)`: one event with the logical index as written and the whole register. -/
def execOutputRegister (index : Half) (s : State) : Host.Outcome State Fault Refusal :=
  finish s do
    let v ← readGpr s index.toNat
    pure (s.emit index v).advance

end Sys2Proof.Machine
end

