-- ==== Sys2Proof/Machine/Stack.lean ====
section
/-! DEFINITION. The stack instructions (spec 42_stack.md, R120, R121). In both the register index is tested
before the stack (R174, decision D8). -/

namespace Sys2Proof.Machine

open Sys2Proof

/-- R120: `Push(reg)`. -/
def execPush (reg : Word) (s : State) : Host.Outcome State Fault Refusal :=
  finish s do
    let v ← readGpr s reg.toNat
    let s1 ← stackPush s v
    pure s1.advance

/-- R121: `Pop(reg)`. The register index is tested before SP is touched (C8). -/
def execPop (reg : Word) (s : State) : Host.Outcome State Fault Refusal :=
  finish s do
    requireGpr s reg.toNat
    let (v, s1) ← stackPop s
    let s2 ← writeGpr s1 reg.toNat v
    pure s2.advance

end Sys2Proof.Machine
end

