-- ==== Sys2Proof/Machine/Dispatch.lean ====
section
/-! DEFINITION. The dispatch of 40_step_cycle.md R104: exactly one instruction rule per variant. -/

namespace Sys2Proof.Machine

open Sys2Proof

/-- Executes a fetched instruction (R104). -/
def exec (i : Instr) (s : State) : Host.Outcome State Fault Refusal :=
  match i with
  | .moveRegister src dst => Sys2Proof.Machine.execMoveRegister src dst s
  | .moveImmediate value dst => Sys2Proof.Machine.execMoveImmediate value dst s
  | .push reg => Sys2Proof.Machine.execPush reg s
  | .pop reg => Sys2Proof.Machine.execPop reg s
  | .jump target => Sys2Proof.Machine.execJump target s
  | .outputRegister index => Sys2Proof.Machine.execOutputRegister index s
  | .halt => Sys2Proof.Machine.execHalt s

end Sys2Proof.Machine
end

