-- ==== Sys2Proof/Machine/Step.lean ====
section
/-! DEFINITION. The step of 40_step_cycle.md R100, in its order of tests (R174), and the placing of one
instruction where the next step fetches. -/

namespace Sys2Proof.Machine

open Sys2Proof

/-- `Step()` of R100. In a terminal state it changes nothing (R105); the ceiling is tested before the step is
counted (R101); the step is counted before IP is tested (R102); an instruction runs in the counted state. -/
def step (s : State) : Host.Outcome State Fault Refusal :=
  if s.status.terminal then .next s
  else if s.ceilingReached then raiseFault .stepLimitExceeded s
  else
    match s.countStep.fetch with
    | none => raiseFault .instructionPointerOutOfBounds s.countStep
    | some i => exec i s.countStep

/-- `s` with the instruction `w` as the one the next step runs. DESIGN CHOICE (log 8), safe: it replaces the instruction at IP when
the program has one there, and otherwise is a program of its own with IP at it. `status` becomes Running, and
`steps` returns to 0 when the ceiling has been reached. Where the decoder refuses `w`, nothing changes. -/
def State.withFetchWord (s : State) (nbits w : Nat) : State :=
  match decodeTableWord nbits w with
  | none => s
  | some i =>
    let s1 :=
      if s.ip.toNat < s.prog.length then { s with prog := s.prog.set s.ip.toNat i }
      else { s.setIp 0 with prog := [i] }
    { s1 with status := .running, steps := if s.ceilingReached then 0 else s.steps }

end Sys2Proof.Machine
end

