-- ==== Sys2Proof/Machine/Flags.lean ====
section
/-! DEFINITION. There are no flags, condition codes or predicates (R30): no instruction sets or tests one, so
there is no flag computation. The one condition the machine reports is `status`; its numeric form on the status
port is here (R172, codes of R171, decision D9). -/

namespace Sys2Proof.Machine

/-- The code of a fault reason (R171). -/
def reasonCode : FaultReason → BitVec 3
  | .instructionPointerOutOfBounds => 1
  | .stackOverflow => 2
  | .stackUnderflow => 3
  | .registerIndexOutOfRange => 4
  | .stepLimitExceeded => 5

/-- `state` on the status port (R172): 0 Running, 1 Halted, 2 Faulted; 3 is never produced. -/
def statePort : Status → BitVec 2
  | .running => 0
  | .halted => 1
  | .faulted _ => 2

/-- `reason` on the status port (R172): 0 unless Faulted. -/
def reasonPort : Status → BitVec 3
  | .running => 0
  | .halted => 0
  | .faulted r => reasonCode r

end Sys2Proof.Machine
end

