-- ==== Sys2Proof/Machine/Transactions.lean ====
section
/-! DEFINITION. The host's transactions (spec 45_host_interface.md R150 to R160). Each is atomic and happens
between steps. They are the host's only moves: there is no host write of IP, SP, a stack cell, a reserved slot,
`status`, `steps` or `out` (R156). -/

namespace Sys2Proof.Machine

open Sys2Proof

/-- `Load(bytes)` of R151, with its result code: on success the program is replaced and the machine reset; on a
decode error nothing changes. -/
def load (bytes : List Byte) (s : State) : State × BitVec 2 :=
  match decode bytes with
  | .ok p => (State.initial s.cfg p, loadCode none)
  | .error e => (s, loadCode (some e))

/-- `LoadDirect(p)` of R153. DESIGN CHOICE (log 15): a `p` that breaks R87 is refused and changes nothing. -/
def loadDirect (p : Program) (s : State) : Option State :=
  if p.WellFormed then some (State.initial s.cfg p) else none

/-- The window and the index test of `PresetGpr` (R155). -/
def presetAllowed (j : Word) (s : State) : Bool :=
  decide (s.status = .running) && decide (s.steps = 0) && gprOk s.cfg j.toNat

/-- `PresetGpr(j, v)` of R155: none when it is refused. -/
def presetGpr (j v : Word) (s : State) : Option State :=
  if presetAllowed j s then some (s.xwrite (gprIndex s.cfg j.toNat) v) else none

/-- `ReadGpr(j)` of R154: none is the out-of-range indication, which does not change `status`. -/
def hostReadGpr (j : Word) (s : State) : Option Word :=
  if gprOk s.cfg j.toNat then some (s.gpr j.toNat) else none

/-- The event a step from `s` to `t` emitted, if it emitted one (R158). -/
def emitted (s t : State) : Option EmitEvent := (t.out.drop s.out.length).head?

/-- What the host can ask for (R150). -/
inductive Transaction where
  | load (bytes : List Byte)
  | loadDirect (p : Program)
  | reset
  | step
  | presetGpr (j v : Word)
  | readGpr (j : Word)
  | readControl (c : Control)
  | readStatus
  deriving DecidableEq, Repr

/-- What the host gets back (R150, R160). -/
inductive Reply where
  /-- The result code of a load, of bytes or of a program (R80, R151, R160). -/
  | loadResult (code : BitVec 2)
  /-- The `Reset` or `PresetGpr` was carried out. -/
  | done
  /-- The `PresetGpr` was refused and nothing was written (R155); also a `LoadDirect` of a program that breaks R87
  (DESIGN CHOICE, log 15). -/
  | denied
  /-- The step was taken; it emitted this event, if any (R158). -/
  | stepped (event : Option EmitEvent)
  /-- The value of a register (R154). -/
  | value (v : Word)
  /-- The index of a `ReadGpr` is out of range (R154). -/
  | outOfRange
  /-- The execution state, with its reason (R159). -/
  | status (st : Status)
  deriving DecidableEq, Repr

/-- One transaction (R150). -/
def transact (tr : Transaction) (s : State) : Host.Outcome (State × Reply) Fault Refusal :=
  match tr with
  | .load bytes => .next ((load bytes s).1, .loadResult (load bytes s).2)
  | .loadDirect p =>
    match loadDirect p s with
    | some t => .next (t, .loadResult (loadCode none))
    | none => .next (s, .denied)
  | .reset => .next (hostReset s, .done)
  | .step =>
    match step s with
    | .next t => .next (t, .stepped (emitted s t))
    | .fault f => .fault f
    | .refused r => .refused r
  | .presetGpr j v =>
    match presetGpr j v s with
    | some t => .next (t, .done)
    | none => .next (s, .denied)
  | .readGpr j =>
    match hostReadGpr j s with
    | some v => .next (s, .value v)
    | none => .next (s, .outOfRange)
  | .readControl c => .next (s, .value (readControl s c))
  | .readStatus => .next (s, .status s.status)

end Sys2Proof.Machine
end

