-- ==== Sys2Proof/Machine/Signals.lean ====
section
/-! DEFINITION. The signal binding of 45_host_interface.md R161: one rising clock edge as a function of the state
and the sampled inputs, and the ports. Clock edges order the transactions; cycle counts beyond that are not
modelled (R207, log 11). -/

namespace Sys2Proof.Machine

open Sys2Proof

/-- The inputs sampled on a rising edge of `clk` (R161). -/
structure Inputs where
  rst : Bool
  ldValid : Bool
  ldByte : Byte
  ldLast : Bool
  run : Bool
  dbgWe : Bool
  dbgAddr : Word
  dbgWdata : Word
  deriving DecidableEq, Repr

/-- The outputs that are pulses: their values in the cycle after the edge (R161). -/
structure Pulses where
  ldDone : Bool
  /-- Valid with `ldDone`. -/
  ldErr : BitVec 2
  /-- `emit_valid`, `emit_index` and `emit_value` together. -/
  emit : Option EmitEvent
  dbgRefused : Bool
  deriving DecidableEq, Repr

/-- No pulse. -/
def quiet : Pulses := { ldDone := false, ldErr := 0, emit := none, dbgRefused := false }

/-- The outputs that follow the state and `dbg_addr` continuously (R161). -/
structure Levels where
  state : BitVec 2
  reason : BitVec 3
  ip : Word
  sp : Word
  dbgRdata : Word
  dbgOor : Bool
  deriving DecidableEq, Repr

/-- The continuous outputs (R161, R172). -/
def levels (dbgAddr : Word) (s : State) : Levels :=
  { state := statePort s.status, reason := reasonPort s.status, ip := s.ip, sp := s.sp,
    dbgRdata := (hostReadGpr dbgAddr s).getD 0, dbgOor := !gprOk s.cfg dbgAddr.toNat }

/-- Replaces the load in progress. -/
def State.setLoader (s : State) (l : Loader) : State := { s with loader := l }

/-- The load in progress after one more byte, `bytes` having arrived before it. -/
def takeByte (bytes : List Byte) (inp : Inputs) : Loader :=
  if inp.ldLast then .committing (bytes ++ [inp.ldByte]) else .receiving (bytes ++ [inp.ldByte])

/-- An edge with no load in progress and no byte arriving: `run` beats `dbg_we`, whose preset is then refused. -/
def idleEdge (inp : Inputs) (s : State) : Host.Outcome (State × Pulses) Fault Refusal :=
  if inp.run then
    match step s with
    | .next t => .next (t, { quiet with emit := emitted s t, dbgRefused := inp.dbgWe })
    | .fault f => .fault f
    | .refused r => .refused r
  else if inp.dbgWe then
    match presetGpr inp.dbgAddr inp.dbgWdata s with
    | some t => .next (t, quiet)
    | none => .next (s, { quiet with dbgRefused := true })
  else .next (s, quiet)

/-- One rising edge of `clk` (R161): `rst` wins over every other request; while a load is in progress `run` and
`dbg_we` are ignored; the edge after the last byte finishes the load. The `rst` of power-on, which empties the
program store too, is `State.powerOn`. DESIGN CHOICE (log 10), unsafe for
claims about them: `rst` drops a load in progress and raises no pulse for a request it beats, so `dbg_refused` stays
low when `rst` and `dbg_we` coincide; a first byte, and the edge that finishes a load, likewise leave `run` and
`dbg_we` without effect and without a pulse; a byte on the finishing edge starts the next stream. -/
def clockEdge (inp : Inputs) (s : State) : Host.Outcome (State × Pulses) Fault Refusal :=
  if inp.rst then .next (hostReset s, quiet)
  else
    match s.loader with
    | .idle => if inp.ldValid then .next (s.setLoader (takeByte [] inp), quiet) else idleEdge inp s
    | .receiving bytes =>
      if inp.ldValid then .next (s.setLoader (takeByte bytes inp), quiet) else .next (s, quiet)
    | .committing bytes =>
      let r := load bytes (s.setLoader .idle)
      .next (r.1.setLoader (if inp.ldValid then takeByte [] inp else .idle), { quiet with ldDone := true, ldErr := r.2 })

/-- A sequence of clock edges, with the pulses of the last one. -/
def clockEdges : List Inputs → State → Host.Outcome (State × Pulses) Fault Refusal
  | [], s => .next (s, quiet)
  | [inp], s => clockEdge inp s
  | inp :: inps, s =>
    match clockEdge inp s with
    | .next (t, _) => clockEdges inps t
    | .fault f => .fault f
    | .refused r => .refused r

end Sys2Proof.Machine
end

