-- ==== Sys2Proof/Safety.lean ====
section
/-! DEFINITION. What counts as a well-formed state and a safe step, in the terms the statements use. -/

namespace Sys2Proof.Machine

open Sys2Proof

/-- The invariant of the machine: what R6, R21, R33, R34 and R43(a) say of every state a run reaches, and the
canonical form of the stack's cells. -/
structure WellFormedState (s : State) : Prop where
  /-- The parameters meet R6. -/
  cfg : s.cfg.WellFormed
  /-- The register file has its `N_REGS` registers (R21). -/
  regs : s.x.length = s.cfg.nRegs
  /-- `0 <= SP <= STACK_CAP` (R27, R43). -/
  sp : s.sp.toNat ≤ s.cfg.stackCap
  /-- The listed cells are in canonical form. -/
  canonical : Memory.wf s.stk
  /-- Only cells that exist are listed (R29). -/
  cells : ∀ c ∈ s.stk, c.1 < s.cfg.stackCap
  /-- `L <= 2^64 - 1` (R33). -/
  prog : s.prog.WellFormed
  /-- The step counter never exceeds the ceiling (R34). -/
  steps : ∀ m, s.cfg.stepLimit = some m → s.steps ≤ m

/-- A step is safe when it answers a next state: the machine's own faults are next states (R170). -/
def SafeStep (s : State) : Prop := ∃ t, step s = .next t

/-- The live part of the operand stack, bottom first: the cells below SP (R27, R29). -/
def liveStack (s : State) : List Word := (List.range s.sp.toNat).map s.stk.read

/-- The instruction a step from `s` to `t` executed with its effect: none if the step absorbed or faulted. -/
def executed (s t : State) : Option Instr :=
  match t.status with
  | .faulted _ => none
  | .running => s.fetch
  | .halted => if s.status.terminal then none else s.fetch

/-- The values pushed and not yet popped after an instruction, `vals` being those before, the latest last. SP and
the stack's cells play no part in it. -/
def pushedAfter (i : Instr) (s : State) (vals : List Word) : List Word :=
  match i with
  | .moveRegister _ _ => vals
  | .moveImmediate _ _ => vals
  | .push reg => vals ++ [s.gpr reg.toNat]
  | .pop _ => vals.dropLast
  | .jump _ => vals
  | .outputRegister _ => vals
  | .halt => vals

/-- The values pushed and not yet popped after `k` steps from `s`, `vals` being those before: counted from the
instructions executed, not from SP or the cells (R27, R43(b)). -/
def outstanding : Nat → State → List Word → List Word
  | 0, _, vals => vals
  | k + 1, s, vals =>
    match step s with
    | .next t =>
      match executed s t with
      | some i => outstanding k t (pushedAfter i s vals)
      | none => outstanding k t vals
    | .fault _ => vals
    | .refused _ => vals

/-- What no instruction changes: the parameters, the program, the step counter, the load in progress. -/
def SameFixed (s t : State) : Prop := t.cfg = s.cfg ∧ t.prog = s.prog ∧ t.steps = s.steps ∧ t.loader = s.loader

/-- The instructions of a list, one after the other, with no step around them. -/
def execAll : List Instr → State → Host.Outcome State Fault Refusal
  | [], s => .next s
  | i :: is, s =>
    match exec i s with
    | .next t => execAll is t
    | .fault f => .fault f
    | .refused r => .refused r

/-- The column "exactly when" of R171 for an instruction, tested in the order of R174. -/
def instrFault (i : Instr) (s : State) : Option FaultReason :=
  match i with
  | .moveRegister src dst =>
    if s.cfg.nGpr ≤ src.toNat ∨ s.cfg.nGpr ≤ dst.toNat then some .registerIndexOutOfRange else none
  | .moveImmediate _ dst => if s.cfg.nGpr ≤ dst.toNat then some .registerIndexOutOfRange else none
  | .push reg =>
    if s.cfg.nGpr ≤ reg.toNat then some .registerIndexOutOfRange
    else if s.sp.toNat = s.cfg.stackCap then some .stackOverflow else none
  | .pop reg =>
    if s.cfg.nGpr ≤ reg.toNat then some .registerIndexOutOfRange
    else if s.sp.toNat = 0 then some .stackUnderflow else none
  | .jump _ => none
  | .outputRegister index => if s.cfg.nGpr ≤ index.toNat then some .registerIndexOutOfRange else none
  | .halt => none

/-- The reason R171 and R174 give a step from a Running state, if any. -/
def stepFault (s : State) : Option FaultReason :=
  if s.ceilingReached then some .stepLimitExceeded
  else if s.prog.length ≤ s.ip.toNat then some .instructionPointerOutOfBounds
  else s.fetch.bind (fun i => instrFault i s)

/-- Two states that agree on everything control flow may depend on (R132): all but the GPRs, the reserved slots,
the stack's contents and the output. -/
structure SameControl (s t : State) : Prop where
  cfg : t.cfg = s.cfg
  prog : t.prog = s.prog
  status : t.status = s.status
  steps : t.steps = s.steps
  ip : t.ip = s.ip
  sp : t.sp = s.sp

/-- Two states that agree on everything a program or the host can observe: all but the dead cells of the stack
(R29, R45) and the reserved slots (R24). -/
structure SameObservable (s t : State) : Prop where
  control : SameControl s t
  out : t.out = s.out
  gprs : ∀ j, j < s.cfg.nGpr → t.gpr j = s.gpr j
  live : ∀ k, k < s.sp.toNat → t.stk.read k = s.stk.read k

end Sys2Proof.Machine
end

