-- ==== Sys2Proof/Certificates/Slice0/Obligations.lean ====
section
/-! DEFINITION. The statements for the provers, each formalising numbered rules of spec/ (named in its docstring).
All hold for every choice of the parameters, which are part of the state. Where a statement would fail only in
states no run reaches, the invariant `WellFormedState` is a premise; that reset has it and that every step,
transaction and clock edge keeps it are statements of their own. -/

open Sys2Proof Sys2Proof.Machine

/-! ## Encoding and decoding -/

/-- Records written out from the opcode map (R74, R76; the bytes are the spec's decisions D2 to D4) decode to the
instructions they stand for. -/
def Obligations.OpcodeMapRecordsDecode : Prop :=
  decodeRecord [0x00, 1, 0, 0, 0, 0, 0, 0, 0, 2, 0, 0, 0, 0, 0, 0, 0] = .ok (.moveRegister 1 2, []) ∧
  decodeRecord [0x01, 0xEF, 0xCD, 0xAB, 0x89, 0x67, 0x45, 0x23, 0x01, 3, 0, 0, 0, 0, 0, 0, 0] =
    .ok (.moveImmediate 0x0123456789ABCDEF 3, []) ∧
  decodeRecord [0x02, 5, 0, 0, 0, 0, 0, 0, 0] = .ok (.push 5, []) ∧
  decodeRecord [0x03, 6, 0, 0, 0, 0, 0, 0, 0] = .ok (.pop 6, []) ∧
  decodeRecord [0x04, 0x00, 0x01, 0, 0, 0, 0, 0, 0] = .ok (.jump 0x100, []) ∧
  decodeRecord [0x05, 0x34, 0x12] = .ok (.outputRegister 0x1234, []) ∧
  decodeRecord [0x06] = .ok (.halt, [])

/-- Whatever bytes follow it, the record of any instruction decodes to that instruction, with every operand at
every value of its type, and leaves exactly the bytes after it (R72, R74, R76, R77, R82; the format is decisions D2 to D4, log 5). -/
def Obligations.EncodedRecordDecodesBack : Prop :=
  ∀ (i : Instr) (rest : List Byte), decodeRecord (encodeInstr i ++ rest) = .ok (i, rest)

/-- R85, both directions: programs of legal length and accepted byte streams correspond one to one (the format is
decisions D2 to D5, log 5). -/
def Obligations.ProgramsAndStreamsCorrespond : Prop :=
  (∀ p : Program, p.WellFormed → decode (encode p) = .ok p) ∧
  (∀ (b : List Byte) (p : Program), decode b = .ok p → encode p = b)

/-- R78: a tag in `0x07 .. 0xFF` at the tag position of a counted record, after any number of whole records and
before any bytes, makes the decoder fail with `UnknownTag` (decisions D3, D5, D6, log 5). -/
def Obligations.OutOfRangeTagIsRefused : Prop :=
  ∀ (p : Program) (n : Nat) (tag : Byte) (rest : List Byte),
    p.length < n → n ≤ 2 ^ 64 - 1 → 0x06 < tag.toNat →
      decode (leBytes 8 n ++ (p.flatMap encodeInstr ++ tag :: rest)) = .error .unknownTag

/-- R79, R80: every proper prefix of an encoded program is `Truncated` (decisions D2 to D6, log 5). -/
def Obligations.CutStreamIsTruncated : Prop :=
  ∀ (p : Program) (k : Nat), p.WellFormed → k < (encode p).length →
    decode ((encode p).take k) = .error .truncated

/-- R79, R80: an encoded program with bytes after it is refused as `TrailingBytes`, whatever the bytes
(decisions D2 to D6, log 5). -/
def Obligations.ExtraBytesAreTrailing : Prop :=
  ∀ (p : Program) (b : Byte) (bs : List Byte), p.WellFormed →
    decode (encode p ++ b :: bs) = .error .trailingBytes

/-- R83: an accepted stream has the length its header and its records give it; a count that exceeds the bytes
after the header is `Truncated` or `UnknownTag`; count 0 alone is the empty program (decisions D2 to D6, log 5). -/
def Obligations.HeaderCountIsProgramLength : Prop :=
  (∀ (b : List Byte) (p : Program), decode b = .ok p →
    p.length = leValue (b.take 8) ∧
    b.length = 8 + (p.map (fun i => 1 + operandBytes (opcodeOf i))).sum ∧
    p.length ≤ b.length - 8) ∧
  (∀ b : List Byte, 8 ≤ b.length → b.length - 8 < leValue (b.take 8) →
    decode b = .error .truncated ∨ decode b = .error .unknownTag) ∧
  (∀ b : List Byte, b.length = 8 → leValue b = 0 → decode b = .ok [])

/-! ## The seven instructions: result, completion and frame -/

/-- R110: with both indices in range `MoveRegister` completes: `gpr[dst]` takes the value of `gpr[src]` (the same
register allowed), IP advances, and every other register, the stack, `status`, `out` and the rest are unchanged. -/
def Obligations.MoveRegisterCopiesGpr : Prop :=
  ∀ (s : State) (src dst : Word), WellFormedState s → src.toNat < s.cfg.nGpr → dst.toNat < s.cfg.nGpr →
    ∃ t, exec (.moveRegister src dst) s = .next t ∧
      t.gpr dst.toNat = s.gpr src.toNat ∧ t.ip = s.ip + 1 ∧
      (∀ i, i ≠ ipIndex → i ≠ gprIndex s.cfg dst.toNat → t.xread i = s.xread i) ∧
      (∀ k, t.stk.read k = s.stk.read k) ∧ t.status = s.status ∧ t.out = s.out ∧ SameFixed s t

/-- R111: with `dst` in range `MoveImmediate` completes for every `value`. -/
def Obligations.MoveImmediateLoadsGpr : Prop :=
  ∀ (s : State) (value dst : Word), WellFormedState s → dst.toNat < s.cfg.nGpr →
    ∃ t, exec (.moveImmediate value dst) s = .next t ∧
      t.gpr dst.toNat = value ∧ t.ip = s.ip + 1 ∧
      (∀ i, i ≠ ipIndex → i ≠ gprIndex s.cfg dst.toNat → t.xread i = s.xread i) ∧
      (∀ k, t.stk.read k = s.stk.read k) ∧ t.status = s.status ∧ t.out = s.out ∧ SameFixed s t

/-- R120: with `reg` in range and room on the stack `Push` completes: the cell at the old SP takes `gpr[reg]`, SP
and IP advance, and every other cell and register is unchanged. -/
def Obligations.PushStoresGprAtSp : Prop :=
  ∀ (s : State) (reg : Word), WellFormedState s → reg.toNat < s.cfg.nGpr → s.sp.toNat < s.cfg.stackCap →
    ∃ t, exec (.push reg) s = .next t ∧
      t.stk.read s.sp.toNat = s.gpr reg.toNat ∧ (∀ k, k ≠ s.sp.toNat → t.stk.read k = s.stk.read k) ∧
      t.sp = s.sp + 1 ∧ t.sp.toNat = s.sp.toNat + 1 ∧ t.ip = s.ip + 1 ∧
      (∀ i, i ≠ ipIndex → i ≠ spIndex → t.xread i = s.xread i) ∧
      t.status = s.status ∧ t.out = s.out ∧ SameFixed s t

/-- R121: with `reg` in range and a value on the stack `Pop` completes: SP steps back, `gpr[reg]` takes the cell
at the new SP, IP advances, and every cell (the popped one too) and every other register is unchanged. -/
def Obligations.PopLoadsGprFromBelowSp : Prop :=
  ∀ (s : State) (reg : Word), WellFormedState s → reg.toNat < s.cfg.nGpr → s.sp.toNat ≠ 0 →
    ∃ t, exec (.pop reg) s = .next t ∧
      t.gpr reg.toNat = s.stk.read t.sp.toNat ∧ t.sp.toNat + 1 = s.sp.toNat ∧ t.ip = s.ip + 1 ∧
      (∀ i, i ≠ ipIndex → i ≠ spIndex → i ≠ gprIndex s.cfg reg.toNat → t.xread i = s.xread i) ∧
      (∀ k, t.stk.read k = s.stk.read k) ∧ t.status = s.status ∧ t.out = s.out ∧ SameFixed s t

/-- R130: `Jump` completes for every target: IP is the target itself, and nothing else changes. -/
def Obligations.JumpSetsIpToTarget : Prop :=
  ∀ (s : State) (target : Word), WellFormedState s →
    ∃ t, exec (.jump target) s = .next t ∧
      t.ip = target ∧ (∀ i, i ≠ ipIndex → t.xread i = s.xread i) ∧
      (∀ k, t.stk.read k = s.stk.read k) ∧ t.status = s.status ∧ t.out = s.out ∧ SameFixed s t

/-- R140: with `index` in range `OutputRegister` completes: exactly one event, the logical index and the whole
register, and IP advances; every other register, the stack and the rest are unchanged. -/
def Obligations.OutputRegisterEmitsOneEvent : Prop :=
  ∀ (s : State) (index : Half), WellFormedState s → index.toNat < s.cfg.nGpr →
    ∃ t, exec (.outputRegister index) s = .next t ∧
      t.out = s.out ++ [{ index := index, value := s.gpr index.toNat }] ∧ t.ip = s.ip + 1 ∧
      (∀ i, i ≠ ipIndex → t.xread i = s.xread i) ∧
      (∀ k, t.stk.read k = s.stk.read k) ∧ t.status = s.status ∧ SameFixed s t

/-- R131: `Halt` completes in every state: `status` is `Halted` and nothing else changes, IP included (that IP
stays is an inference the spec marks as its own). -/
def Obligations.HaltChangesOnlyStatus : Prop :=
  ∀ s : State, ∃ t, exec .halt s = .next t ∧
    t.status = .halted ∧ t.ip = s.ip ∧ t.sp = s.sp ∧ (∀ i, t.xread i = s.xread i) ∧
    (∀ k, t.stk.read k = s.stk.read k) ∧ t.out = s.out ∧ SameFixed s t

/-! ## Where instructions fault -/

/-- R171 row 4, R174: any register operand at or above `N_GPR` faults with `RegisterIndexOutOfRange` and changes
only `status`, whatever the stack holds (that this reason comes before the stack's is decision D8). -/
def Obligations.BadRegisterIndexFaults : Prop :=
  ∀ s : State,
    (∀ src dst : Word, s.cfg.nGpr ≤ src.toNat ∨ s.cfg.nGpr ≤ dst.toNat →
      exec (.moveRegister src dst) s = .next (s.setStatus (.faulted .registerIndexOutOfRange))) ∧
    (∀ value dst : Word, s.cfg.nGpr ≤ dst.toNat →
      exec (.moveImmediate value dst) s = .next (s.setStatus (.faulted .registerIndexOutOfRange))) ∧
    (∀ reg : Word, s.cfg.nGpr ≤ reg.toNat →
      exec (.push reg) s = .next (s.setStatus (.faulted .registerIndexOutOfRange))) ∧
    (∀ reg : Word, s.cfg.nGpr ≤ reg.toNat →
      exec (.pop reg) s = .next (s.setStatus (.faulted .registerIndexOutOfRange))) ∧
    (∀ index : Half, s.cfg.nGpr ≤ index.toNat →
      exec (.outputRegister index) s = .next (s.setStatus (.faulted .registerIndexOutOfRange)))

/-- R171 row 2, R120: a `Push` of a good register on a full stack faults with `StackOverflow` and changes only
`status`; with `STACK_CAP = 0` that is every such `Push`. -/
def Obligations.PushOnFullStackFaults : Prop :=
  ∀ (s : State) (reg : Word), reg.toNat < s.cfg.nGpr → s.sp.toNat = s.cfg.stackCap →
    exec (.push reg) s = .next (s.setStatus (.faulted .stackOverflow))

/-- R171 row 3, R121: a `Pop` into a good register from an empty stack faults with `StackUnderflow` and changes
only `status`. -/
def Obligations.PopOnEmptyStackFaults : Prop :=
  ∀ (s : State) (reg : Word), reg.toNat < s.cfg.nGpr → s.sp.toNat = 0 →
    exec (.pop reg) s = .next (s.setStatus (.faulted .stackUnderflow))

/-- The model's own choice (log 3), resting on R55's "a stack index outside its range is never formed": with SP
beyond the stack's capacity, which no run reaches, `Push` and `Pop` of a good register stop the model by name. -/
def Obligations.StackPointerBeyondCapacityStops : Prop :=
  ∀ (s : State) (reg : Word), reg.toNat < s.cfg.nGpr → s.cfg.stackCap < s.sp.toNat →
    exec (.push reg) s = .fault .stackCellAbsent ∧ exec (.pop reg) s = .fault .stackCellAbsent

/-! ## The access primitives -/

/-- R38, R39, R40: `gpr_ok` is exactly `j < N_GPR` for a `u64` and for a `u16`; a good access reads or writes
physical register `N_RESERVED + j` and nothing else; a bad one raises and writes nothing. -/
def Obligations.GprAccessIsBoundsChecked : Prop :=
  (∀ (c : Config) (j : Word), gprOk c j.toNat = true ↔ j.toNat < c.nGpr) ∧
  (∀ (c : Config) (j : Half), gprOk c j.toNat = true ↔ j.toNat < c.nGpr) ∧
  (∀ (s : State) (j : Nat), j < s.cfg.nGpr → readGpr s j = .ok (s.xread (s.cfg.nReserved + j))) ∧
  (∀ (s : State) (j : Nat), s.cfg.nGpr ≤ j → readGpr s j = .error (.raised .registerIndexOutOfRange)) ∧
  (∀ (s : State) (j : Nat) (v : Word), WellFormedState s → j < s.cfg.nGpr →
    ∃ t, writeGpr s j v = .ok t ∧ t.xread (s.cfg.nReserved + j) = v ∧
      (∀ i, i ≠ s.cfg.nReserved + j → t.xread i = s.xread i) ∧
      t.stk = s.stk ∧ t.status = s.status ∧ t.out = s.out ∧ SameFixed s t) ∧
  (∀ (s : State) (j : Nat) (v : Word), s.cfg.nGpr ≤ j →
    writeGpr s j v = .error (.raised .registerIndexOutOfRange))

/-- R23: a GPR read or write reaches only a physical register from `N_RESERVED` up, never IP, SP or a reserved slot;
the index `2^64 - N_RESERVED`, which modular addition would map onto IP, is out of range for both. That the range
test comes before the offset is added is the spec's decision D16 (log 5). -/
def Obligations.GprNeverAliasesControl : Prop :=
  ∀ (s : State) (v : Word), WellFormedState s →
    (∀ j, j < s.cfg.nGpr →
      (∃ i, s.cfg.nReserved ≤ i ∧ i < s.cfg.nRegs ∧ readGpr s j = .ok (s.xread i)) ∧
      ∃ t, writeGpr s j v = .ok t ∧ t.ip = s.ip ∧ t.sp = s.sp ∧
        (∀ i, i < s.cfg.nReserved → t.xread i = s.xread i) ∧ gprIndex s.cfg j < s.cfg.nRegs) ∧
    readGpr s (BitVec.ofNat 64 (2 ^ 64 - s.cfg.nReserved)).toNat = .error (.raised .registerIndexOutOfRange) ∧
    writeGpr s (BitVec.ofNat 64 (2 ^ 64 - s.cfg.nReserved)).toNat v = .error (.raised .registerIndexOutOfRange)

/-- R41: `stack_push` fails with `StackOverflow` if SP equals the capacity; otherwise it writes at SP and
increments SP, exactly, and touches nothing else. -/
def Obligations.StackPushWritesThenIncrements : Prop :=
  ∀ (s : State) (v : Word), WellFormedState s →
    (s.sp.toNat = s.cfg.stackCap → stackPush s v = .error (.raised .stackOverflow)) ∧
    (s.sp.toNat ≠ s.cfg.stackCap →
      ∃ t, stackPush s v = .ok t ∧ t.stk.read s.sp.toNat = v ∧ t.sp.toNat = s.sp.toNat + 1 ∧
        (∀ k, k ≠ s.sp.toNat → t.stk.read k = s.stk.read k) ∧
        (∀ i, i ≠ spIndex → t.xread i = s.xread i) ∧ t.status = s.status ∧ t.out = s.out ∧ SameFixed s t)

/-- R42: `stack_pop` fails with `StackUnderflow` if SP equals 0; otherwise it decrements SP first, then reads and
returns the value at the new SP, and touches nothing else. -/
def Obligations.StackPopDecrementsThenReads : Prop :=
  ∀ s : State, WellFormedState s →
    (s.sp.toNat = 0 → stackPop s = .error (.raised .stackUnderflow)) ∧
    (s.sp.toNat ≠ 0 →
      ∃ v t, stackPop s = .ok (v, t) ∧ t.sp.toNat + 1 = s.sp.toNat ∧ v = s.stk.read t.sp.toNat ∧
        t.stk = s.stk ∧ (∀ i, i ≠ spIndex → t.xread i = s.xread i) ∧
        t.status = s.status ∧ t.out = s.out ∧ SameFixed s t)

/-! ## The step -/

/-- R100, R103, R104: a Running step below the ceiling with IP inside the program counts itself and executes the
instruction at IP; in particular, after a load of bytes that decode, the first step executes the first decoded
instruction from the reset state. -/
def Obligations.StepRunsTheFetchedInstruction : Prop :=
  (∀ (s : State) (i : Instr), s.status = .running → s.ceilingReached = false →
    s.prog[s.ip.toNat]? = some i → step s = exec i s.countStep) ∧
  (∀ (s : State) (bytes : List Byte) (i : Instr) (p : Program), WellFormedState s → s.cfg.stepLimit ≠ some 0 →
    decode bytes = .ok (i :: p) →
      step (load bytes s).1 = exec i (State.initial s.cfg (i :: p)).countStep)

/-- R101: with `STEP_LIMIT = some(M)` a Running step with `steps >= M` faults with `StepLimitExceeded` and changes
nothing else, `steps` included; with no limit the test never holds (mechanics: decision D10). -/
def Obligations.StepCeilingFaultsFirst : Prop :=
  (∀ (s : State) (m : Nat), s.status = .running → s.cfg.stepLimit = some m → m ≤ s.steps →
    step s = .next (s.setStatus (.faulted .stepLimitExceeded))) ∧
  (∀ s : State, s.cfg.stepLimit = none → s.ceilingReached = false)

/-- R102: `IP >= L` before a fetch faults with `InstructionPointerOutOfBounds`, IP kept; so a `Jump` beyond the
program succeeds and the step after it faults at the target, running off the end leaves `IP = L`, and the first
step of the empty program faults. -/
def Obligations.IpOutOfBoundsFaultsBeforeFetch : Prop :=
  (∀ s : State, s.status = .running → s.ceilingReached = false → s.prog.length ≤ s.ip.toNat →
    step s = .next (s.countStep.setStatus (.faulted .instructionPointerOutOfBounds))) ∧
  (∀ (s : State) (target : Word), WellFormedState s → s.status = .running → s.ceilingReached = false →
    s.fetch = some (.jump target) → s.prog.length ≤ target.toNat →
      ∃ t, step s = .next t ∧ t.status = .running ∧ t.ip = target ∧
        (t.ceilingReached = false →
          ∃ u, step t = .next u ∧ u.status = .faulted .instructionPointerOutOfBounds ∧ u.ip = target)) ∧
  (∀ (s t : State), WellFormedState s → s.status = .running → s.ceilingReached = false →
    s.ip.toNat + 1 = s.prog.length → (∀ target, s.fetch ≠ some (.jump target)) →
    step s = .next t → t.status = .running → t.ip.toNat = t.prog.length) ∧
  (∀ cfg : Config, cfg.stepLimit ≠ some 0 →
    ∃ t, step (State.initial cfg []) = .next t ∧ t.status = .faulted .instructionPointerOutOfBounds)

/-- R105, R106: a terminal state absorbs any number of steps (decision D12). -/
def Obligations.TerminalStatesAbsorbSteps : Prop :=
  ∀ (s : State) (k : Nat), s.status.terminal = true → core.run k s = .next s

/-- R32, R152, R177: a terminal status is left only by a reset or a successful load, and then for Running. -/
def Obligations.TerminalStatusLeftOnlyByReset : Prop :=
  ∀ (tr : Transaction) (s t : State) (r : Reply), s.status.terminal = true → transact tr s = .next (t, r) →
    t.status ≠ s.status →
      t.status = .running ∧ t = State.initial s.cfg t.prog ∧
        (tr = .reset ∨ (∃ bytes, tr = .load bytes) ∨ ∃ p, tr = .loadDirect p)

/-- R171, R174: from a Running state a step faults exactly when the table of reasons says, with the reason its
order of tests gives (the order is decision D8 and D10). -/
def Obligations.StepFaultsExactlyByTheTable : Prop :=
  ∀ s : State, WellFormedState s → s.status = .running →
    ∃ t, step s = .next t ∧ ∀ r, t.status = .faulted r ↔ stepFault s = some r

/-- R170: a step that faults sets `status` and changes no register, no stack cell and no output. -/
def Obligations.FaultChangesOnlyStatusAndSteps : Prop :=
  ∀ (s t : State) (r : FaultReason), s.status = .running → step s = .next t → t.status = .faulted r →
    t.x = s.x ∧ t.stk = s.stk ∧ t.out = s.out ∧ t.prog = s.prog ∧ t.cfg = s.cfg ∧ t.loader = s.loader ∧
      (t.steps = s.steps ∨ t.steps = s.steps + 1)

/-! ## Reset -/

/-- R44, R200, R201: whatever the state before, `Reset` keeps the program and the parameters and gives Running,
every register 0, every stack cell 0, no steps and no output (the zeros of the reserved slots and of the stack
are decision D11). That no load is in progress after it is in no reset table of the spec: it is the model's choice
(log 10). -/
def Obligations.ResetGivesTheInitialState : Prop :=
  ∀ s : State,
    (hostReset s).status = .running ∧ (hostReset s).ip = 0 ∧ (hostReset s).sp = 0 ∧
    (∀ i, (hostReset s).xread i = 0) ∧ (hostReset s).x.length = s.cfg.nRegs ∧
    (∀ k, (hostReset s).stk.read k = 0) ∧ (hostReset s).steps = 0 ∧ (hostReset s).out = [] ∧
    (hostReset s).loader = .idle ∧ (hostReset s).prog = s.prog ∧ (hostReset s).cfg = s.cfg

/-- Reset and power-on states meet the invariant, for every legal choice of parameters and program; `State.reset`
is one of them (its parameters are the model's choice, log 1). -/
def Obligations.ResetStateIsWellFormed : Prop :=
  (∀ (cfg : Config) (p : Program), cfg.WellFormed → p.WellFormed → WellFormedState (State.initial cfg p)) ∧
  WellFormedState State.reset

/-- R201: a step of a machine that was given no program faults with `InstructionPointerOutOfBounds`, and counts
itself (decision D14). -/
def Obligations.PowerOnStepFaults : Prop :=
  ∀ cfg : Config, cfg.stepLimit ≠ some 0 →
    step (State.powerOn cfg) =
      .next ((State.powerOn cfg).countStep.setStatus (.faulted .instructionPointerOutOfBounds))

/-! ## Invariants of the whole machine -/

/-- R43 with R6, R21, R33, R34: the invariant is kept by every step that answers a next state. -/
def Obligations.StepKeepsWellFormedness : Prop :=
  ∀ s t : State, WellFormedState s → step s = .next t → WellFormedState t

/-- R100 ("total: defined in every state"): a step from a state that meets the invariant answers a next state;
nothing in the model stops it. -/
def Obligations.WellFormedStatesAlwaysStep : Prop := ∀ s : State, WellFormedState s → SafeStep s

/-- R150 to R160: every host transaction is answered and keeps the invariant. -/
def Obligations.TransactionsKeepWellFormedness : Prop :=
  ∀ (tr : Transaction) (s : State), WellFormedState s →
    ∃ t r, transact tr s = .next (t, r) ∧ WellFormedState t

/-- R161: every clock edge, whatever the inputs and the load in progress, is answered and keeps the invariant (the
corners of the binding are the model's choice, log 10). -/
def Obligations.ClockEdgesKeepWellFormedness : Prop :=
  ∀ (inp : Inputs) (s : State), WellFormedState s →
    ∃ t p, clockEdge inp s = .next (t, p) ∧ WellFormedState t

/-- R24: no step and no preset changes a reserved slot `x[2] .. x[N_RESERVED - 1]`. -/
def Obligations.ReservedSlotsNeverChange : Prop :=
  ∀ (s t : State) (i : Nat), 2 ≤ i → i < s.cfg.nReserved →
    (step s = .next t → t.xread i = s.xread i) ∧
    (∀ j v, presetGpr j v s = some t → t.xread i = s.xread i)

/-- R27: SP stays within the stack; only a `Push` changes it by one up, having written at the old SP, and only a
`Pop` by one down, reading at the new SP. SP is the number of values on the stack: from a state where it counts
the values outstanding, it counts after any number of steps the values pushed and not yet popped, as reckoned from
the instructions executed. -/
def Obligations.SpChangesOnlyByPushAndPop : Prop :=
  (∀ s t : State, WellFormedState s → step s = .next t →
    t.sp.toNat ≤ t.cfg.stackCap ∧
    (t.sp = s.sp ∨
      (∃ reg, s.fetch = some (.push reg) ∧ t.sp.toNat = s.sp.toNat + 1 ∧
        t.stk.read s.sp.toNat = s.gpr reg.toNat) ∨
      (∃ reg, s.fetch = some (.pop reg) ∧ t.sp.toNat + 1 = s.sp.toNat ∧
        t.gpr reg.toNat = s.stk.read t.sp.toNat))) ∧
  (∀ (s t : State) (vals : List Word) (k : Nat), WellFormedState s → vals.length = s.sp.toNat →
    core.run k s = .next t → (outstanding k s vals).length = t.sp.toNat)

/-- R25, R26: a step that leaves the machine Running moves IP to the target of its `Jump` or by exactly one, with
no wrap; a step that halts or faults leaves IP. -/
def Obligations.IpAdvancesByOneOrJumps : Prop :=
  ∀ s t : State, WellFormedState s → s.status = .running → step s = .next t →
    (t.status = .running →
      (∃ target, s.fetch = some (.jump target) ∧ t.ip = target) ∨
      ((∀ target, s.fetch ≠ some (.jump target)) ∧ t.ip.toNat = s.ip.toNat + 1)) ∧
    (t.status.terminal = true → t.ip = s.ip)

/-- R60: no step changes the program; the only transactions that do are the loads, which replace the whole program
and reset the machine with it; a fetch returns the instruction that was loaded at that index. -/
def Obligations.OnlyLoadsChangeTheProgram : Prop :=
  (∀ s t : State, step s = .next t → t.prog = s.prog ∧ t.cfg = s.cfg) ∧
  (∀ (tr : Transaction) (s t : State) (r : Reply), transact tr s = .next (t, r) →
    t.cfg = s.cfg ∧
    (t.prog = s.prog ∨
      (t = State.initial s.cfg t.prog ∧ ((∃ bytes, tr = .load bytes) ∨ ∃ p, tr = .loadDirect p)))) ∧
  (∀ (s : State) (p : Program) (k : Nat) (t : State), core.run k (State.initial s.cfg p) = .next t →
    t.fetch = p[t.ip.toNat]?)

/-- R35, R140, R158: a step emits at most one event, at the end of `out`, and only by executing an
`OutputRegister` with a good index, whose index and register value the event carries. -/
def Obligations.OutputGrowsOnlyByOutputRegister : Prop :=
  ∀ s t : State, step s = .next t →
    t.out = s.out ∨
      ∃ index, s.fetch = some (.outputRegister index) ∧ index.toNat < s.cfg.nGpr ∧
        t.out = s.out ++ [{ index := index, value := s.gpr index.toNat }]

/-! ## The stack as a whole -/

/-- R43(b), R122: on the live stack a step acts as on an abstract last-in first-out list: it appends the value of
the pushed register, or takes the last value off into the popped register, or leaves the list as it was. -/
def Obligations.LiveStackIsLastInFirstOut : Prop :=
  ∀ s t : State, WellFormedState s → step s = .next t →
    liveStack t = liveStack s ∨
      (∃ reg, s.fetch = some (.push reg) ∧ liveStack t = liveStack s ++ [s.gpr reg.toNat]) ∨
      (∃ reg, s.fetch = some (.pop reg) ∧ liveStack s = liveStack t ++ [t.gpr reg.toNat])

/-- R43(b): after any number of steps the cells below SP hold, bottom first, exactly the values pushed and not yet
popped, as reckoned from the instructions executed; from reset, where none are outstanding, each of them was stored
by a `Push` since reset. -/
def Obligations.LiveCellsHoldOutstandingPushes : Prop :=
  (∀ (s t : State) (k : Nat), WellFormedState s → core.run k s = .next t →
    (List.range t.sp.toNat).map t.stk.read = outstanding k s (liveStack s)) ∧
  (∀ (cfg : Config) (p : Program), liveStack (State.initial cfg p) = [])

/-- R122(b): pushing N registers and then popping N values returns them in reverse order, and SP returns to its
pre-push value; no other GPR changes. -/
def Obligations.PushesThenPopsReverse : Prop :=
  ∀ (s : State) (srcs dsts : List Word), WellFormedState s →
    srcs.length = dsts.length → s.sp.toNat + srcs.length ≤ s.cfg.stackCap → dsts.Nodup →
    (∀ r ∈ srcs, r.toNat < s.cfg.nGpr) → (∀ r ∈ dsts, r.toNat < s.cfg.nGpr) →
    ∃ t, execAll (srcs.map Instr.push ++ dsts.map Instr.pop) s = .next t ∧
      t.sp = s.sp ∧ t.status = s.status ∧
      (∀ k, (hk : k < dsts.length) → t.gpr dsts[k].toNat = s.gpr (srcs.reverse.getD k 0).toNat) ∧
      (∀ j, j < s.cfg.nGpr → (∀ r ∈ dsts, r.toNat ≠ j) → t.gpr j = s.gpr j)

/-! ## Runs -/

/-- R106: with a finite `STEP_LIMIT` the machine is terminal after at most as many further steps as the limit
leaves, and one. -/
def Obligations.StepLimitEndsEveryRun : Prop :=
  ∀ (s : State) (m : Nat), WellFormedState s → s.cfg.stepLimit = some m →
    ∃ t, core.run (m - s.steps + 1) s = .next t ∧ t.status.terminal = true

/-- R132: control flow depends on no data. Two runs that start with the same program, status, IP, SP and step
count, whatever their registers and stack hold, keep the same IP, SP, status and step count at every step. -/
def Obligations.ControlFlowIgnoresData : Prop :=
  ∀ (s t : State) (k : Nat), WellFormedState s → WellFormedState t → SameControl s t →
    ∃ s' t', core.run k s = .next s' ∧ core.run k t = .next t' ∧ SameControl s' t'

/-- R24, R29, R45: the dead stack cells and the reserved slots cannot be observed. Two runs that start with states
that differ only there agree at every step on everything a program or the host can see. -/
def Obligations.DeadStateIsUnobservable : Prop :=
  ∀ (s t : State) (k : Nat), WellFormedState s → WellFormedState t → SameObservable s t →
    ∃ s' t', core.run k s = .next s' ∧ core.run k t = .next t' ∧ SameObservable s' t'

/-! ## The host's transactions -/

/-- R81: when `decode` returns an error, a load changes no part of the program store and no machine state, and
its result is the error's code. -/
def Obligations.FailedLoadChangesNothing : Prop :=
  ∀ (s : State) (bytes : List Byte) (e : DecodeError), decode bytes = .error e →
    load bytes s = (s, loadCode (some e)) ∧ loadCode (some e) ≠ 0

/-- R151: a load of bytes that decode installs the program, resets the machine and answers code 0, in any state. -/
def Obligations.SuccessfulLoadInstallsAndResets : Prop :=
  ∀ (s : State) (bytes : List Byte) (p : Program), decode bytes = .ok p →
    load bytes s = (State.initial s.cfg p, 0)

/-- R87, R153, R160: `LoadDirect(p)` of a legal program is `Load(encode(p))`, with the same state and the same reply,
result code 0. That any other program is refused with nothing changed is the model's choice (log 15). -/
def Obligations.LoadDirectIsLoadOfEncoding : Prop :=
  ∀ (s : State) (p : Program),
    (p.WellFormed → loadDirect p s = some (load (encode p) s).1 ∧ (load (encode p) s).2 = 0 ∧
      transact (.loadDirect p) s = transact (.load (encode p)) s ∧
      transact (.loadDirect p) s = .next (State.initial s.cfg p, .loadResult 0)) ∧
    (¬ p.WellFormed → loadDirect p s = none ∧ transact (.loadDirect p) s = .next (s, .denied))

/-- R155: `PresetGpr` writes exactly the one GPR when Running, before the first step, with a good index, and is
refused with nothing written in every other case (decision D13). -/
def Obligations.PresetOnlyBeforeTheFirstStep : Prop :=
  ∀ (s : State) (j v : Word), WellFormedState s →
    (s.status = .running → s.steps = 0 → j.toNat < s.cfg.nGpr →
      ∃ t, transact (.presetGpr j v) s = .next (t, .done) ∧ t.gpr j.toNat = v ∧
        (∀ i, i ≠ gprIndex s.cfg j.toNat → t.xread i = s.xread i) ∧
        t.stk = s.stk ∧ t.status = s.status ∧ t.out = s.out ∧ SameFixed s t) ∧
    (s.status ≠ .running ∨ s.steps ≠ 0 ∨ s.cfg.nGpr ≤ j.toNat →
      transact (.presetGpr j v) s = .next (s, .denied))

/-- R154, R159: the host's reads answer what they name and change nothing; a bad index is reported to the host and
is no fault of the machine. -/
def Obligations.HostReadsChangeNothing : Prop :=
  ∀ s : State,
    (∀ j : Word, j.toNat < s.cfg.nGpr → transact (.readGpr j) s = .next (s, .value (s.gpr j.toNat))) ∧
    (∀ j : Word, s.cfg.nGpr ≤ j.toNat → transact (.readGpr j) s = .next (s, .outOfRange)) ∧
    transact (.readControl .ip) s = .next (s, .value s.ip) ∧
    transact (.readControl .sp) s = .next (s, .value s.sp) ∧
    transact .readStatus s = .next (s, .status s.status)

/-- R156: a host transaction that is not a step, a reset or a load leaves IP, SP, every reserved slot, the stack,
`status`, `steps`, `out` and the program as they are, and writes a GPR only before the first step (decision
D13). -/
def Obligations.HostCannotWriteControl : Prop :=
  ∀ (tr : Transaction) (s t : State) (r : Reply), WellFormedState s →
    tr ≠ .step → tr ≠ .reset → (∀ bytes, tr ≠ .load bytes) → (∀ p, tr ≠ .loadDirect p) →
    transact tr s = .next (t, r) →
      t.ip = s.ip ∧ t.sp = s.sp ∧ (∀ i, i < s.cfg.nReserved → t.xread i = s.xread i) ∧ t.stk = s.stk ∧
        t.status = s.status ∧ t.out = s.out ∧ SameFixed s t ∧
        (s.steps ≠ 0 → t = s)

/-! ## The signal binding -/

/-- R171, R172: the codes on the status port (decision D9); `reason` is 0 exactly when the machine is not
Faulted. -/
def Obligations.StatusPortCodes : Prop :=
  statePort .running = 0 ∧ statePort .halted = 1 ∧ (∀ r, statePort (.faulted r) = 2) ∧
  reasonPort (.faulted .instructionPointerOutOfBounds) = 1 ∧ reasonPort (.faulted .stackOverflow) = 2 ∧
  reasonPort (.faulted .stackUnderflow) = 3 ∧ reasonPort (.faulted .registerIndexOutOfRange) = 4 ∧
  reasonPort (.faulted .stepLimitExceeded) = 5 ∧
  (∀ st, reasonPort st = 0 ↔ statePort st ≠ 2) ∧ (∀ st, statePort st ≠ 3)

/-- R161: a stream of bytes presented on consecutive edges, the last marked, and the edge that finishes it have
the effect and the result code of the one transaction `Load`, whatever `run` and `dbg_we` do meanwhile. The model's
choices (log 10): the first byte's edge (in a one-byte stream also the last byte's), on which no load is in progress
yet, and the finishing edge ignore `run` and `dbg_we` too, neither with a pulse of `dbg_refused`, and a failed load
leaves none in progress. Between the first byte and the last, R161 itself says that they are ignored. -/
def Obligations.SerialLoadIsLoad : Prop :=
  ∀ (s : State) (inps : List Inputs) (final last : Inputs), s.loader = .idle →
    (∀ i ∈ inps, i.rst = false ∧ i.ldValid = true ∧ i.ldLast = false) →
    last.rst = false → last.ldValid = true → last.ldLast = true →
    final.rst = false → final.ldValid = false →
      clockEdges (inps ++ [last, final]) s =
        .next ((load (inps.map Inputs.ldByte ++ [last.ldByte]) s).1,
          { quiet with ldDone := true, ldErr := (load (inps.map Inputs.ldByte ++ [last.ldByte]) s).2 })

/-- R161: `rst` wins over every other request and is `Reset`. With no load in progress and none starting, `run`
takes one step, whose event, if it emitted one, is on the emit port, and a preset asked for on the same edge is
refused; with `run` low `dbg_we` is `PresetGpr`, with a pulse of `dbg_refused` and no effect when it is refused;
with neither nothing happens. The model's choices (log 10): `rst` drops a load in progress, `rst` raises no pulse
for a request it beats (`dbg_refused` included), and `ld_err` is 0 without `ld_done`. -/
def Obligations.ResetWinsAndRunBeatsPreset : Prop :=
  ∀ (inp : Inputs) (s : State),
    (inp.rst = true → clockEdge inp s = .next (hostReset s, quiet)) ∧
    (inp.rst = false → s.loader = .idle → inp.ldValid = false →
      (inp.run = true → ∀ t, step s = .next t →
        clockEdge inp s = .next (t, { quiet with emit := emitted s t, dbgRefused := inp.dbgWe }) ∧
        ∀ e, emitted s t = some e ↔ t.out = s.out ++ [e]) ∧
      (inp.run = false → inp.dbgWe = true →
        (WellFormedState s → s.status = .running → s.steps = 0 → inp.dbgAddr.toNat < s.cfg.nGpr →
          ∃ t, clockEdge inp s = .next (t, quiet) ∧ t.gpr inp.dbgAddr.toNat = inp.dbgWdata ∧
            (∀ i, i ≠ gprIndex s.cfg inp.dbgAddr.toNat → t.xread i = s.xread i) ∧
            t.stk = s.stk ∧ t.status = s.status ∧ t.out = s.out ∧ SameFixed s t) ∧
        (s.status ≠ .running ∨ s.steps ≠ 0 ∨ s.cfg.nGpr ≤ inp.dbgAddr.toNat →
          clockEdge inp s = .next (s, { quiet with dbgRefused := true }))) ∧
      (inp.run = false → inp.dbgWe = false → clockEdge inp s = .next (s, quiet)))

/-- R161: the continuous outputs in every state and for every `dbg_addr`: the status port, IP, SP, and the addressed
GPR, or 0 with `dbg_oor` when the address is out of range. -/
def Obligations.ContinuousOutputsFollowTheState : Prop :=
  ∀ (s : State) (addr : Word),
    (levels addr s).state = statePort s.status ∧ (levels addr s).reason = reasonPort s.status ∧
    (levels addr s).ip = s.xread 0 ∧ (levels addr s).sp = s.xread 1 ∧
    (addr.toNat < s.cfg.nGpr →
      (levels addr s).dbgRdata = s.xread (s.cfg.nReserved + addr.toNat) ∧ (levels addr s).dbgOor = false) ∧
    (s.cfg.nGpr ≤ addr.toNat → (levels addr s).dbgRdata = 0 ∧ (levels addr s).dbgOor = true)
end

