-- ==== Sys2Proof/Laws/Memory.lean ====
section
/-! SUPPORT. The laws of the operand stack's cells: reading after a write, and that every operation keeps the
canonical form. -/

namespace Sys2Proof.Machine

open Sys2Proof

@[simp] theorem memory_read_nil (k : Nat) : Memory.read [] k = 0 := rfl

theorem memory_read_below {m : Memory} {k : Nat} (h : ∀ c ∈ m, k < c.1) : m.read k = 0 := by
  induction m with
  | nil => rfl
  | cons c m ih =>
    have hc := h c (by simp)
    simp only [Memory.read]
    rw [if_neg (by omega)]
    exact ih fun d hd => h d (by simp [hd])

/-- The indices a write can add. -/
theorem memory_write_mem {m : Memory} {k : Nat} {v : Word} {c : Nat × Word} (h : c ∈ m.write k v) :
    c ∈ m ∨ (c = (k, v) ∧ v ≠ 0) := by
  induction m with
  | nil =>
    simp only [Memory.write] at h
    split at h
    · simp at h
    · simp_all
  | cons d m ih =>
    obtain ⟨a, w⟩ := d
    simp only [Memory.write] at h
    split at h
    · split at h
      · exact .inl h
      · rcases List.mem_cons.1 h with rfl | h
        · exact .inr ⟨rfl, by assumption⟩
        · exact .inl h
    · split at h
      · split at h
        · exact .inl (List.mem_cons_of_mem _ h)
        · rcases List.mem_cons.1 h with rfl | h
          · exact .inr ⟨rfl, by assumption⟩
          · exact .inl (List.mem_cons_of_mem _ h)
      · rcases List.mem_cons.1 h with rfl | h
        · exact .inl (by simp)
        · rcases ih h with h | h
          · exact .inl (List.mem_cons_of_mem _ h)
          · exact .inr h

/-- A write keeps the canonical form. -/
theorem memory_write_wf {m : Memory} (h : m.wf) (k : Nat) (v : Word) : (m.write k v).wf := by
  induction m with
  | nil =>
    simp only [Memory.write]
    split <;> simp_all [Memory.wf]
  | cons d m ih =>
    obtain ⟨a, w⟩ := d
    obtain ⟨hs, hz⟩ := h
    obtain ⟨hlt, hs⟩ := List.pairwise_cons.1 hs
    have hzm : ∀ c ∈ m, c.2 ≠ 0 := fun c hc => hz c (by simp [hc])
    have hw : w ≠ 0 := hz (a, w) (by simp)
    simp only [Memory.write]
    split
    · rename_i hk
      split
      · exact ⟨List.pairwise_cons.2 ⟨hlt, hs⟩, hz⟩
      · rename_i hv
        refine ⟨List.pairwise_cons.2 ⟨?_, List.pairwise_cons.2 ⟨hlt, hs⟩⟩, ?_⟩
        · intro c hc
          rcases List.mem_cons.1 hc with rfl | hc
          · exact hk
          · exact Nat.lt_trans hk (hlt c hc)
        · intro c hc
          rcases List.mem_cons.1 hc with rfl | hc
          · exact hv
          · exact hz c hc
    · split
      · rename_i hk
        split
        · exact ⟨hs, hzm⟩
        · rename_i hv
          subst hk
          refine ⟨List.pairwise_cons.2 ⟨fun c hc => hlt c hc, ‹_›⟩, ?_⟩
          intro c hc
          rcases List.mem_cons.1 hc with rfl | hc
          · exact hv
          · exact hzm c hc
      · obtain ⟨h1, h2⟩ := ih ⟨hs, hzm⟩
        refine ⟨List.pairwise_cons.2 ⟨?_, h1⟩, ?_⟩
        · intro c hc
          rcases memory_write_mem hc with hc | ⟨rfl, -⟩
          · exact hlt c hc
          · simp only; omega
        · intro c hc
          rcases List.mem_cons.1 hc with rfl | hc
          · exact hw
          · exact h2 c hc

/-- Reading after a write: the value written at its cell, the old value at every other cell. -/
theorem memory_read_write {m : Memory} (h : m.wf) (k j : Nat) (v : Word) :
    (m.write k v).read j = if j = k then v else m.read j := by
  induction m with
  | nil =>
    by_cases hv : v = 0
    · simp [Memory.write, hv]
    · by_cases hj : j = k
      · simp only [Memory.write, Memory.read, if_neg hv, if_pos hj, if_pos hj.symm]
      · simp only [Memory.write, Memory.read, if_neg hv, if_neg hj, if_neg (Ne.symm hj)]
  | cons d m ih =>
    obtain ⟨a, w⟩ := d
    obtain ⟨hs, hz⟩ := h
    obtain ⟨hlt, hs'⟩ := List.pairwise_cons.1 hs
    have hrec := ih ⟨hs', fun c hc => hz c (by simp [hc])⟩
    have hnew : k < a → Memory.read ((a, w) :: m) k = 0 := fun hk => memory_read_below fun c hc => by
      rcases List.mem_cons.1 hc with rfl | hc
      · exact hk
      · exact Nat.lt_trans hk (hlt c hc)
    have hgone : k = a → Memory.read m k = 0 := fun hk => memory_read_below fun c hc => hk ▸ hlt c hc
    rcases Nat.lt_trichotomy k a with hk | hk | hk
    · by_cases hv : v = 0
      · by_cases hj : j = k
        · simp only [Memory.write, if_pos hk, if_pos hv, if_pos hj]
          rw [hj, hnew hk, hv]
        · simp only [Memory.write, if_pos hk, if_pos hv, if_neg hj]
      · by_cases hj : j = k
        · simp only [Memory.write, Memory.read, if_pos hk, if_neg hv, if_pos hj, if_pos hj.symm]
        · simp only [Memory.write, Memory.read, if_pos hk, if_neg hv, if_neg hj, if_neg (Ne.symm hj)]
    · have hlt' : ¬ k < a := by omega
      by_cases hv : v = 0
      · by_cases hj : j = k
        · simp only [Memory.write, if_neg hlt', if_pos hk, if_pos hv, if_pos hj]
          rw [hj, hgone hk, hv]
        · simp only [Memory.write, Memory.read, if_neg hlt', if_pos hk, if_pos hv, if_neg hj,
            if_neg (hk ▸ Ne.symm hj)]
      · by_cases hj : j = k
        · simp only [Memory.write, Memory.read, if_neg hlt', if_pos hk, if_neg hv, if_pos hj, if_pos hj.symm]
        · simp only [Memory.write, Memory.read, if_neg hlt', if_pos hk, if_neg hv, if_neg hj, if_neg (Ne.symm hj),
            if_neg (hk ▸ Ne.symm hj)]
    · have hlt' : ¬ k < a := by omega
      have hne : k ≠ a := by omega
      simp only [Memory.write, Memory.read, if_neg hlt', if_neg hne]
      by_cases hj : a = j
      · have hjk : j ≠ k := by omega
        simp only [if_pos hj, if_neg hjk]
      · simp only [if_neg hj]
        exact hrec

/-- The indices listed stay below a bound that the written index meets. -/
theorem memory_write_bound {m : Memory} {n k : Nat} (h : ∀ c ∈ m, c.1 < n) (hk : k < n) (v : Word) :
    ∀ c ∈ m.write k v, c.1 < n := by
  intro c hc
  rcases memory_write_mem hc with hc | ⟨rfl, -⟩
  · exact h c hc
  · exact hk

end Sys2Proof.Machine
end

