-- ==== Sys2Proof/Laws/State.lean ====
section
/-! SUPPORT. What each named update of the state does to each field, and what the register accessors read after
it: all by unfolding once, so that no later proof unfolds a record update. -/

namespace Sys2Proof.Machine

open Sys2Proof

section Fields

variable (s : State)

/-! ### xwrite -/

@[simp] theorem xwrite_cfg (i : Nat) (v : Word) : (s.xwrite i v).cfg = s.cfg := rfl
@[simp] theorem xwrite_prog (i : Nat) (v : Word) : (s.xwrite i v).prog = s.prog := rfl
@[simp] theorem xwrite_x (i : Nat) (v : Word) : (s.xwrite i v).x = s.x.set i v := rfl
@[simp] theorem xwrite_stk (i : Nat) (v : Word) : (s.xwrite i v).stk = s.stk := rfl
@[simp] theorem xwrite_status (i : Nat) (v : Word) : (s.xwrite i v).status = s.status := rfl
@[simp] theorem xwrite_steps (i : Nat) (v : Word) : (s.xwrite i v).steps = s.steps := rfl
@[simp] theorem xwrite_out (i : Nat) (v : Word) : (s.xwrite i v).out = s.out := rfl
@[simp] theorem xwrite_loader (i : Nat) (v : Word) : (s.xwrite i v).loader = s.loader := rfl

/-! ### setIp -/

@[simp] theorem setIp_cfg (v : Word) : (s.setIp v).cfg = s.cfg := rfl
@[simp] theorem setIp_prog (v : Word) : (s.setIp v).prog = s.prog := rfl
@[simp] theorem setIp_stk (v : Word) : (s.setIp v).stk = s.stk := rfl
@[simp] theorem setIp_status (v : Word) : (s.setIp v).status = s.status := rfl
@[simp] theorem setIp_steps (v : Word) : (s.setIp v).steps = s.steps := rfl
@[simp] theorem setIp_out (v : Word) : (s.setIp v).out = s.out := rfl
@[simp] theorem setIp_loader (v : Word) : (s.setIp v).loader = s.loader := rfl

/-! ### setSp -/

@[simp] theorem setSp_cfg (v : Word) : (s.setSp v).cfg = s.cfg := rfl
@[simp] theorem setSp_prog (v : Word) : (s.setSp v).prog = s.prog := rfl
@[simp] theorem setSp_stk (v : Word) : (s.setSp v).stk = s.stk := rfl
@[simp] theorem setSp_status (v : Word) : (s.setSp v).status = s.status := rfl
@[simp] theorem setSp_steps (v : Word) : (s.setSp v).steps = s.steps := rfl
@[simp] theorem setSp_out (v : Word) : (s.setSp v).out = s.out := rfl
@[simp] theorem setSp_loader (v : Word) : (s.setSp v).loader = s.loader := rfl

/-! ### advance -/

@[simp] theorem advance_cfg : (s.advance).cfg = s.cfg := rfl
@[simp] theorem advance_prog : (s.advance).prog = s.prog := rfl
@[simp] theorem advance_stk : (s.advance).stk = s.stk := rfl
@[simp] theorem advance_status : (s.advance).status = s.status := rfl
@[simp] theorem advance_steps : (s.advance).steps = s.steps := rfl
@[simp] theorem advance_out : (s.advance).out = s.out := rfl
@[simp] theorem advance_loader : (s.advance).loader = s.loader := rfl

/-! ### setStk -/

@[simp] theorem setStk_cfg (m : Memory) : (s.setStk m).cfg = s.cfg := rfl
@[simp] theorem setStk_prog (m : Memory) : (s.setStk m).prog = s.prog := rfl
@[simp] theorem setStk_x (m : Memory) : (s.setStk m).x = s.x := rfl
@[simp] theorem setStk_stk (m : Memory) : (s.setStk m).stk = m := rfl
@[simp] theorem setStk_status (m : Memory) : (s.setStk m).status = s.status := rfl
@[simp] theorem setStk_steps (m : Memory) : (s.setStk m).steps = s.steps := rfl
@[simp] theorem setStk_out (m : Memory) : (s.setStk m).out = s.out := rfl
@[simp] theorem setStk_loader (m : Memory) : (s.setStk m).loader = s.loader := rfl

/-! ### setStatus -/

@[simp] theorem setStatus_cfg (st : Status) : (s.setStatus st).cfg = s.cfg := rfl
@[simp] theorem setStatus_prog (st : Status) : (s.setStatus st).prog = s.prog := rfl
@[simp] theorem setStatus_x (st : Status) : (s.setStatus st).x = s.x := rfl
@[simp] theorem setStatus_stk (st : Status) : (s.setStatus st).stk = s.stk := rfl
@[simp] theorem setStatus_status (st : Status) : (s.setStatus st).status = st := rfl
@[simp] theorem setStatus_steps (st : Status) : (s.setStatus st).steps = s.steps := rfl
@[simp] theorem setStatus_out (st : Status) : (s.setStatus st).out = s.out := rfl
@[simp] theorem setStatus_loader (st : Status) : (s.setStatus st).loader = s.loader := rfl

/-! ### emit -/

@[simp] theorem emit_cfg (i : Half) (v : Word) : (s.emit i v).cfg = s.cfg := rfl
@[simp] theorem emit_prog (i : Half) (v : Word) : (s.emit i v).prog = s.prog := rfl
@[simp] theorem emit_x (i : Half) (v : Word) : (s.emit i v).x = s.x := rfl
@[simp] theorem emit_stk (i : Half) (v : Word) : (s.emit i v).stk = s.stk := rfl
@[simp] theorem emit_status (i : Half) (v : Word) : (s.emit i v).status = s.status := rfl
@[simp] theorem emit_steps (i : Half) (v : Word) : (s.emit i v).steps = s.steps := rfl
@[simp] theorem emit_out (i : Half) (v : Word) : (s.emit i v).out = s.out ++ [{ index := i, value := v }] := rfl
@[simp] theorem emit_loader (i : Half) (v : Word) : (s.emit i v).loader = s.loader := rfl

/-! ### countStep -/

@[simp] theorem countStep_cfg : (s.countStep).cfg = s.cfg := rfl
@[simp] theorem countStep_prog : (s.countStep).prog = s.prog := rfl
@[simp] theorem countStep_x : (s.countStep).x = s.x := rfl
@[simp] theorem countStep_stk : (s.countStep).stk = s.stk := rfl
@[simp] theorem countStep_status : (s.countStep).status = s.status := rfl
@[simp] theorem countStep_steps : (s.countStep).steps = s.steps + 1 := rfl
@[simp] theorem countStep_out : (s.countStep).out = s.out := rfl
@[simp] theorem countStep_loader : (s.countStep).loader = s.loader := rfl

/-! ### setLoader -/

@[simp] theorem setLoader_cfg (l : Loader) : (s.setLoader l).cfg = s.cfg := rfl
@[simp] theorem setLoader_prog (l : Loader) : (s.setLoader l).prog = s.prog := rfl
@[simp] theorem setLoader_x (l : Loader) : (s.setLoader l).x = s.x := rfl
@[simp] theorem setLoader_stk (l : Loader) : (s.setLoader l).stk = s.stk := rfl
@[simp] theorem setLoader_status (l : Loader) : (s.setLoader l).status = s.status := rfl
@[simp] theorem setLoader_steps (l : Loader) : (s.setLoader l).steps = s.steps := rfl
@[simp] theorem setLoader_out (l : Loader) : (s.setLoader l).out = s.out := rfl
@[simp] theorem setLoader_loader (l : Loader) : (s.setLoader l).loader = l := rfl

/-! ### The register accessors after an update that leaves the registers alone -/

@[simp] theorem setStk_xread (m : Memory) (k : Nat) : (s.setStk m).xread k = s.xread k := rfl
@[simp] theorem setStk_ip (m : Memory) : (s.setStk m).ip = s.ip := rfl
@[simp] theorem setStk_sp (m : Memory) : (s.setStk m).sp = s.sp := rfl
@[simp] theorem setStk_gpr (m : Memory) (j : Nat) : (s.setStk m).gpr j = s.gpr j := rfl

@[simp] theorem setStatus_xread (st : Status) (k : Nat) : (s.setStatus st).xread k = s.xread k := rfl
@[simp] theorem setStatus_ip (st : Status) : (s.setStatus st).ip = s.ip := rfl
@[simp] theorem setStatus_sp (st : Status) : (s.setStatus st).sp = s.sp := rfl
@[simp] theorem setStatus_gpr (st : Status) (j : Nat) : (s.setStatus st).gpr j = s.gpr j := rfl

@[simp] theorem emit_xread (i : Half) (v : Word) (k : Nat) : (s.emit i v).xread k = s.xread k := rfl
@[simp] theorem emit_ip (i : Half) (v : Word) : (s.emit i v).ip = s.ip := rfl
@[simp] theorem emit_sp (i : Half) (v : Word) : (s.emit i v).sp = s.sp := rfl
@[simp] theorem emit_gpr (i : Half) (v : Word) (j : Nat) : (s.emit i v).gpr j = s.gpr j := rfl

@[simp] theorem countStep_xread (k : Nat) : (s.countStep).xread k = s.xread k := rfl
@[simp] theorem countStep_ip : (s.countStep).ip = s.ip := rfl
@[simp] theorem countStep_sp : (s.countStep).sp = s.sp := rfl
@[simp] theorem countStep_gpr (j : Nat) : (s.countStep).gpr j = s.gpr j := rfl

@[simp] theorem setLoader_xread (l : Loader) (k : Nat) : (s.setLoader l).xread k = s.xread k := rfl
@[simp] theorem setLoader_ip (l : Loader) : (s.setLoader l).ip = s.ip := rfl
@[simp] theorem setLoader_sp (l : Loader) : (s.setLoader l).sp = s.sp := rfl
@[simp] theorem setLoader_gpr (l : Loader) (j : Nat) : (s.setLoader l).gpr j = s.gpr j := rfl

end Fields

/-! ### The register file -/

theorem xread_xwrite_same {s : State} {i : Nat} (h : i < s.x.length) (v : Word) : (s.xwrite i v).xread i = v := by
  simp [State.xread, h]

theorem xread_xwrite_ne {s : State} {i k : Nat} (h : k ≠ i) (v : Word) : (s.xwrite i v).xread k = s.xread k := by
  simp [State.xread, Ne.symm h]

@[simp] theorem xwrite_x_length (s : State) (i : Nat) (v : Word) : (s.xwrite i v).x.length = s.x.length := by simp

theorem ip_eq (s : State) : s.ip = s.xread 0 := rfl

theorem sp_eq (s : State) : s.sp = s.xread 1 := rfl

theorem gpr_eq (s : State) (j : Nat) : s.gpr j = s.xread (gprIndex s.cfg j) := rfl

theorem setIp_eq (s : State) (v : Word) : s.setIp v = s.xwrite 0 v := rfl

theorem setSp_eq (s : State) (v : Word) : s.setSp v = s.xwrite 1 v := rfl

theorem advance_eq (s : State) : s.advance = s.setIp (s.ip + 1) := rfl

theorem setIp_ip {s : State} (h : 0 < s.x.length) (v : Word) : (s.setIp v).ip = v :=
  xread_xwrite_same h v

theorem setSp_sp {s : State} (h : 1 < s.x.length) (v : Word) : (s.setSp v).sp = v :=
  xread_xwrite_same h v

@[simp] theorem setIp_sp (s : State) (v : Word) : (s.setIp v).sp = s.sp :=
  xread_xwrite_ne (by decide) v

@[simp] theorem setSp_ip (s : State) (v : Word) : (s.setSp v).ip = s.ip :=
  xread_xwrite_ne (by decide) v

theorem setIp_xread {s : State} {k : Nat} (h : k ≠ 0) (v : Word) : (s.setIp v).xread k = s.xread k :=
  xread_xwrite_ne h v

theorem setSp_xread {s : State} {k : Nat} (h : k ≠ 1) (v : Word) : (s.setSp v).xread k = s.xread k :=
  xread_xwrite_ne h v

@[simp] theorem setIp_x_length (s : State) (v : Word) : (s.setIp v).x.length = s.x.length :=
  xwrite_x_length s 0 v

@[simp] theorem setSp_x_length (s : State) (v : Word) : (s.setSp v).x.length = s.x.length :=
  xwrite_x_length s 1 v

theorem advance_ip {s : State} (h : 0 < s.x.length) : s.advance.ip = s.ip + 1 := setIp_ip h _

@[simp] theorem advance_sp (s : State) : s.advance.sp = s.sp := setIp_sp s _

theorem advance_xread {s : State} {k : Nat} (h : k ≠ 0) : s.advance.xread k = s.xread k := setIp_xread h _

@[simp] theorem advance_x_length (s : State) : s.advance.x.length = s.x.length := setIp_x_length s _

end Sys2Proof.Machine
end

