-- ==== Sys2Proof/Laws/Access.lean ====
section
/-! SUPPORT. One lemma per shared operation: everything it can answer. Proofs about instructions cite these and
do not unfold the operations. -/

namespace Sys2Proof.Machine

open Sys2Proof

theorem wf_regs {s : State} (h : WellFormedState s) : s.x.length = s.cfg.nReserved + s.cfg.nGpr := h.regs

theorem wf_two_le {s : State} (h : WellFormedState s) : 2 ≤ s.cfg.nReserved := h.cfg.1

theorem two_le_x_length {s : State} (h : WellFormedState s) : 2 ≤ s.x.length := by
  have h1 := h.regs
  have h2 := h.cfg.1
  simp only [Config.nRegs] at h1
  omega

theorem gprIndex_eq (c : Config) (j : Nat) : gprIndex c j = c.nReserved + j := rfl

/-- A GPR is neither IP nor SP nor a reserved slot (R23, R28). -/
theorem two_le_gprIndex {s : State} (h : WellFormedState s) (j : Nat) : 2 ≤ gprIndex s.cfg j :=
  Nat.le_trans (wf_two_le h) (Nat.le_add_right _ _)

theorem gprIndex_lt {s : State} (h : WellFormedState s) {j : Nat} (hj : j < s.cfg.nGpr) :
    gprIndex s.cfg j < s.x.length := by
  rw [wf_regs h, gprIndex_eq]
  omega

theorem gprOk_iff (c : Config) (j : Nat) : gprOk c j = true ↔ j < c.nGpr := by simp [gprOk]

theorem requireGpr_of_lt {s : State} {j : Nat} (h : j < s.cfg.nGpr) : requireGpr s j = .ok () := by
  simp [requireGpr, gprOk, h]

theorem requireGpr_of_le {s : State} {j : Nat} (h : s.cfg.nGpr ≤ j) :
    requireGpr s j = .error (.raised .registerIndexOutOfRange) := by
  simp [requireGpr, gprOk, Nat.not_lt.2 h]

theorem readGpr_of_lt {s : State} {j : Nat} (h : j < s.cfg.nGpr) : readGpr s j = .ok (s.gpr j) := by
  simp [readGpr, gprOk, h]

theorem readGpr_of_le {s : State} {j : Nat} (h : s.cfg.nGpr ≤ j) :
    readGpr s j = .error (.raised .registerIndexOutOfRange) := by
  simp [readGpr, gprOk, Nat.not_lt.2 h]

theorem writeGpr_of_lt {s : State} {j : Nat} (h : j < s.cfg.nGpr) (v : Word) :
    writeGpr s j v = .ok (s.xwrite (gprIndex s.cfg j) v) := by
  simp [writeGpr, gprOk, h]

theorem writeGpr_of_le {s : State} {j : Nat} (h : s.cfg.nGpr ≤ j) (v : Word) :
    writeGpr s j v = .error (.raised .registerIndexOutOfRange) := by
  simp [writeGpr, gprOk, Nat.not_lt.2 h]

theorem stackPush_of_full {s : State} (h : s.sp.toNat = s.cfg.stackCap) (v : Word) :
    stackPush s v = .error (.raised .stackOverflow) := by
  simp [stackPush, h]

theorem stackPush_of_room {s : State} (h : s.sp.toNat < s.cfg.stackCap) (v : Word) :
    stackPush s v = .ok ((s.setStk (s.stk.write s.sp.toNat v)).setSp (s.sp + 1)) := by
  simp [stackPush, memWrite, writeControl, Nat.ne_of_lt h, h, bind, Except.bind, pure, Except.pure]

theorem stackPush_of_beyond {s : State} (h : s.cfg.stackCap < s.sp.toNat) (v : Word) :
    stackPush s v = .error (.stuck .stackCellAbsent) := by
  simp [stackPush, memWrite, Nat.ne_of_gt h, Nat.not_lt.2 (Nat.le_of_lt h), bind, Except.bind]

theorem stackPop_of_empty {s : State} (h : s.sp.toNat = 0) : stackPop s = .error (.raised .stackUnderflow) := by
  simp [stackPop, h]

theorem sp_sub_one {v : Word} (h : v.toNat ≠ 0) : (v - 1).toNat = v.toNat - 1 := by
  have := v.isLt
  rw [BitVec.toNat_sub]
  simp
  omega

theorem stackPop_of_some {s : State} (hx : 1 < s.x.length) (h0 : s.sp.toNat ≠ 0)
    (h : s.sp.toNat ≤ s.cfg.stackCap) :
    stackPop s = .ok (s.stk.read (s.sp.toNat - 1), s.setSp (s.sp - 1)) := by
  have hk : s.sp.toNat - 1 < s.cfg.stackCap := by omega
  simp only [stackPop, memRead, writeControl, if_neg h0, setSp_sp hx, sp_sub_one h0, setSp_cfg, setSp_stk, if_pos hk,
    bind, Except.bind, pure, Except.pure]

@[simp] theorem finish_ok (s t : State) : finish s (.ok t) = .next t := rfl

@[simp] theorem finish_raised (s : State) (r : FaultReason) :
    finish s (.error (.raised r)) = .next (s.setStatus (.faulted r)) := rfl

@[simp] theorem finish_stuck (s : State) (f : Fault) : finish s (.error (.stuck f)) = .fault f := rfl

/-- What an instruction's end can be, when it is a next state: all its writes, or only the fault. -/
theorem finish_next {s t : State} {e : Except Stop State} (h : finish s e = .next t) :
    e = .ok t ∨ ∃ r, e = .error (.raised r) ∧ t = s.setStatus (.faulted r) := by
  rcases e with (r | f) | u
  · simp only [finish_raised, Host.Outcome.next.injEq] at h
    exact .inr ⟨r, rfl, h.symm⟩
  · simp at h
  · simp only [finish_ok, Host.Outcome.next.injEq] at h
    exact .inl (by rw [h])

theorem fetch_of_lt {s : State} (h : s.ip.toNat < s.prog.length) : s.fetch = some s.prog[s.ip.toNat] := by
  simp [State.fetch, h]

theorem fetch_of_le {s : State} (h : s.prog.length ≤ s.ip.toNat) : s.fetch = none := by
  simp [State.fetch, h]

theorem fetch_some {s : State} {i : Instr} (h : s.fetch = some i) : s.ip.toNat < s.prog.length := by
  simp only [State.fetch] at h
  exact (List.getElem?_eq_some_iff.1 h).1

end Sys2Proof.Machine
end

