-- ==== Sys2Proof/Laws/PerInstr.lean ====
section
/-! SUPPORT. A fact of every instruction as syntax, one lemma per constructor: the length of its record and the
tag it starts with (spec 30_encoding.md R75, R76). -/

namespace Sys2Proof.Laws.RecordShape

open Sys2Proof

/-- The record is a tag byte in `0x00 .. 0x06` that names the instruction's variant, and then exactly the operand
bytes of that variant. -/
def Statement (i : Instr) : Prop :=
  opcodeOfTag (tagOf (opcodeOf i)) = some (opcodeOf i) ∧
    (encodeInstr i).head? = some (tagOf (opcodeOf i)) ∧
    (encodeInstr i).length = 1 + operandBytes (opcodeOf i) ∧ (encodeInstr i).length ≤ maxRecordBytes

theorem leBytes_length (n v : Nat) : (leBytes n v).length = n := by
  induction n generalizing v with
  | zero => rfl
  | succ n ih => simp [leBytes, ih]

theorem moveRegister (src dst : Word) : Statement (.moveRegister src dst) :=
  ⟨by rfl, by rfl, by simp [encodeInstr, encodeOperands, leBytes_length, operandBytes, opcodeOf],
    by simp [encodeInstr, encodeOperands, leBytes_length, maxRecordBytes]⟩

theorem moveImmediate (value dst : Word) : Statement (.moveImmediate value dst) :=
  ⟨by rfl, by rfl, by simp [encodeInstr, encodeOperands, leBytes_length, operandBytes, opcodeOf],
    by simp [encodeInstr, encodeOperands, leBytes_length, maxRecordBytes]⟩

theorem push (reg : Word) : Statement (.push reg) :=
  ⟨by rfl, by rfl, by simp [encodeInstr, encodeOperands, leBytes_length, operandBytes, opcodeOf],
    by simp [encodeInstr, encodeOperands, leBytes_length, maxRecordBytes]⟩

theorem pop (reg : Word) : Statement (.pop reg) :=
  ⟨by rfl, by rfl, by simp [encodeInstr, encodeOperands, leBytes_length, operandBytes, opcodeOf],
    by simp [encodeInstr, encodeOperands, leBytes_length, maxRecordBytes]⟩

theorem jump (target : Word) : Statement (.jump target) :=
  ⟨by rfl, by rfl, by simp [encodeInstr, encodeOperands, leBytes_length, operandBytes, opcodeOf],
    by simp [encodeInstr, encodeOperands, leBytes_length, maxRecordBytes]⟩

theorem outputRegister (index : Half) : Statement (.outputRegister index) :=
  ⟨by rfl, by rfl, by simp [encodeInstr, encodeOperands, leBytes_length, operandBytes, opcodeOf],
    by simp [encodeInstr, encodeOperands, leBytes_length, maxRecordBytes]⟩

theorem halt : Statement .halt := ⟨by rfl, by rfl, by rfl, by decide⟩

end Sys2Proof.Laws.RecordShape
end

