-- ==== Sys2Proof/Laws/Step.lean ====
section
/-! SUPPORT. What a step can do, said once: proofs about steps cite this inversion and do not unfold `step`. -/

namespace Sys2Proof.Machine

open Sys2Proof

@[simp] theorem raiseFault_eq (r : FaultReason) (s : State) :
    raiseFault r s = .next (s.setStatus (.faulted r)) := rfl

theorem terminal_eq_false {st : Status} (h : st.terminal = false) : st = .running := by
  cases st with
  | running => rfl
  | halted => simp [Status.terminal] at h
  | faulted r => simp [Status.terminal] at h

/-- The four ways a step answers a next state (R100): it absorbs, it meets the ceiling, it finds IP out of the
program, or the fetched instruction ran in the counted state. -/
theorem step_next {s t : State} (h : step s = .next t) :
    (s.status.terminal = true ∧ t = s) ∨
    (s.status = .running ∧ s.ceilingReached = true ∧ t = s.setStatus (.faulted .stepLimitExceeded)) ∨
    (s.status = .running ∧ s.ceilingReached = false ∧ s.fetch = none ∧
      t = s.countStep.setStatus (.faulted .instructionPointerOutOfBounds)) ∨
    (s.status = .running ∧ s.ceilingReached = false ∧ ∃ i, s.fetch = some i ∧ exec i s.countStep = .next t) := by
  cases ht : s.status.terminal with
  | true =>
    simp only [step, ht, if_true, Host.Outcome.next.injEq] at h
    exact .inl ⟨rfl, h.symm⟩
  | false =>
    have hr := terminal_eq_false ht
    cases hc : s.ceilingReached with
    | true =>
      simp only [step, ht, hc, if_true, Bool.false_eq_true, if_false, raiseFault_eq, Host.Outcome.next.injEq] at h
      exact .inr (.inl ⟨hr, rfl, h.symm⟩)
    | false =>
      have hfetch : s.countStep.fetch = s.fetch := rfl
      cases hf : s.fetch with
      | none =>
        simp only [step, ht, hc, Bool.false_eq_true, if_false, hfetch, hf, raiseFault_eq,
          Host.Outcome.next.injEq] at h
        exact .inr (.inr (.inl ⟨hr, rfl, rfl, h.symm⟩))
      | some i =>
        simp only [step, ht, hc, Bool.false_eq_true, if_false, hfetch, hf] at h
        exact .inr (.inr (.inr ⟨hr, rfl, i, rfl, h⟩))

end Sys2Proof.Machine
end

