-- ==== Sys2Proof/Tests/Slice0.lean ====
section
/-! SUPPORT. The model's own tests. Expected results are the vectors of spec/95_test_vectors.md (named in each
comment) or hand work from the rule named; then, for every statement that has hypotheses, a witness that meets
them, at boundary values for each clause. -/

namespace Sys2Proof.Tests

open Sys2Proof Sys2Proof.Machine

/-! ## Helpers -/

/-- A Running state of the configuration `cfg` with IP, SP, GPRs and stack cells given. -/
def mk (cfg : Config) (p : Program) (ip sp : Word) (gprs : List Word) (stk : Memory) : State :=
  { State.initial cfg p with x := ip :: sp :: 0 :: 0 :: gprs, stk := stk }

/-- The same in `CFG_T`. -/
def mkT (p : Program) (ip sp : Word) (gprs : List Word) (stk : Memory) : State := mk Config.cfgT p ip sp gprs stk

/-- Eight GPRs, all 0. -/
def zeros : List Word := [0, 0, 0, 0, 0, 0, 0, 0]

/-- `CFG_T` with a step ceiling. -/
def cfgLimit (m : Nat) : Config := { Config.cfgT with stepLimit := some m }

/-- What is seen of a next state. -/
def see {α : Type} (f : State → α) : Host.Outcome State Fault Refusal → Option α
  | .next t => some (f t)
  | .fault _ => none
  | .refused _ => none

/-! ## WellFormed: each check refuses an ill-formed term (R6, R33) -/

theorem test_config_cfgT_ok : Config.cfgT.WellFormed := by decide

theorem test_config_needs_two_reserved : ¬ ({ Config.cfgT with nReserved := 1 } : Config).WellFormed := by decide

theorem test_config_register_file_too_long : ¬ ({ Config.cfgT with nGpr := 2 ^ 64 } : Config).WellFormed := by decide

theorem test_config_stack_too_deep : ¬ ({ Config.cfgT with stackCap := 2 ^ 64 } : Config).WellFormed := by decide

theorem test_config_limit_too_large : ¬ (cfgLimit (2 ^ 64)).WellFormed := by decide

theorem test_program_too_long : ¬ Program.WellFormed (List.replicate (2 ^ 64) Instr.halt) := by
  unfold Program.WellFormed
  rw [List.length_replicate]
  decide

/-! ## Decoding: records and streams (V-ENC, V-DEC) -/

/-- V-ENC-1. -/
theorem test_decode_moveRegister :
    decodeRecord [0x00, 1, 0, 0, 0, 0, 0, 0, 0, 2, 0, 0, 0, 0, 0, 0, 0] = .ok (.moveRegister 1 2, []) := by decide

/-- V-ENC-2: value first, destination second. -/
theorem test_decode_moveImmediate :
    decodeRecord [0x01, 0xEF, 0xCD, 0xAB, 0x89, 0x67, 0x45, 0x23, 0x01, 3, 0, 0, 0, 0, 0, 0, 0] =
      .ok (.moveImmediate 0x0123456789ABCDEF 3, []) := by decide

/-- V-ENC-3. -/
theorem test_decode_push : decodeRecord [0x02, 5, 0, 0, 0, 0, 0, 0, 0] = .ok (.push 5, []) := by decide

/-- V-ENC-4. -/
theorem test_decode_pop : decodeRecord [0x03, 6, 0, 0, 0, 0, 0, 0, 0] = .ok (.pop 6, []) := by decide

/-- V-ENC-9. -/
theorem test_decode_jump :
    decodeRecord [0x04, 0xFF, 0xFF, 0xFF, 0xFF, 0xFF, 0xFF, 0xFF, 0xFF] = .ok (.jump 0xFFFFFFFFFFFFFFFF, []) := by
  decide

/-- V-ENC-6. -/
theorem test_decode_outputRegister : decodeRecord [0x05, 0x34, 0x12] = .ok (.outputRegister 0x1234, []) := by decide

/-- V-ENC-7. -/
theorem test_decode_halt : decodeRecord [0x06] = .ok (.halt, []) := by decide

/-- V-ENC-11. -/
theorem test_encode_moveImmediate :
    encodeInstr (.moveImmediate 0xDEAD 0xFFFFFFFFFFFFFFFC) =
      [0x01, 0xAD, 0xDE, 0, 0, 0, 0, 0, 0, 0xFC, 0xFF, 0xFF, 0xFF, 0xFF, 0xFF, 0xFF, 0xFF] := by decide

/-- Program P1 of Part 3, its 29 bytes. -/
theorem test_encode_P1 :
    encode [.moveImmediate 100 0, .outputRegister 0, .halt] =
      [3, 0, 0, 0, 0, 0, 0, 0, 0x01, 0x64, 0, 0, 0, 0, 0, 0, 0, 0, 0, 0, 0, 0, 0, 0, 0, 0x05, 0, 0, 0x06] := by decide

/-- V-DEC-2, 6, 10, 13, 18. -/
theorem test_stream_truncated :
    decode [0, 0, 0, 0, 0, 0, 0] = .error .truncated ∧
    decode [1, 0, 0, 0, 0, 0, 0, 0] = .error .truncated ∧
    decode [1, 0, 0, 0, 0, 0, 0, 0, 0x02, 0, 0, 0, 0, 0, 0, 0] = .error .truncated ∧
    decode [1, 0, 0, 0, 0, 0, 0, 0, 0x05, 0] = .error .truncated ∧
    decode [2, 0, 0, 0, 0, 0, 0, 0, 0x06] = .error .truncated := by decide

/-- V-DEC-8, 19, 20: the tag test comes before the length test. -/
theorem test_stream_unknownTag :
    decode [1, 0, 0, 0, 0, 0, 0, 0, 0x07] = .error .unknownTag ∧
    decode [2, 0, 0, 0, 0, 0, 0, 0, 0x07] = .error .unknownTag ∧
    decode [2, 0, 0, 0, 0, 0, 0, 0, 0x06, 0x09, 0] = .error .unknownTag := by decide

/-- V-DEC-4, 5, 16: a byte is an unknown tag only at a tag position. -/
theorem test_stream_trailingBytes :
    decode [0, 0, 0, 0, 0, 0, 0, 0, 0x06] = .error .trailingBytes ∧
    decode [0, 0, 0, 0, 0, 0, 0, 0, 0x07] = .error .trailingBytes ∧
    decode [1, 0, 0, 0, 0, 0, 0, 0, 0x06, 0x07] = .error .trailingBytes := by decide

/-- V-DEC-3, 14, 21. -/
theorem test_stream_ok :
    decode [0, 0, 0, 0, 0, 0, 0, 0] = .ok [] ∧
    decode [1, 0, 0, 0, 0, 0, 0, 0, 0x05, 0xFF, 0xFF] = .ok [.outputRegister 65535] ∧
    decode [2, 0, 0, 0, 0, 0, 0, 0, 0x05, 0, 0, 0x06] = .ok [.outputRegister 0, .halt] := by decide

/-- R74: the record of V-ENC-2 as one little-endian integer. -/
theorem test_table_word :
    decodeTableWord 136 (0x01 + 0x0123456789ABCDEF * 2 ^ 8 + 3 * 2 ^ 72) =
      some (.moveImmediate 0x0123456789ABCDEF 3) ∧
    decodeTableWord 8 0x03 = some (.pop 0) ∧ decodeTableWord 8 0x07 = none := by decide

/-! ## The seven instructions -/

/-- V-MOV-4. -/
theorem test_moveRegister :
    see (fun t => (t.gpr 0, t.gpr 7, t.ip)) (exec (.moveRegister 7 0) (mkT [] 2 0 [0, 0, 0, 0, 0, 0, 0, -1] [])) =
      some (-1, -1, 3) := by decide

/-- V-MOV-9. -/
theorem test_moveRegister_bad_source :
    see (fun t => (t.status, t.gpr 0, t.ip)) (exec (.moveRegister 8 0) (mkT [] 0 0 [3, 0, 0, 0, 0, 0, 0, 0] [])) =
      some (.faulted .registerIndexOutOfRange, 3, 0) := by decide

/-- V-MOV-1: IP is 1, not 100. -/
theorem test_moveImmediate :
    see (fun t => (t.gpr 0, t.ip)) (exec (.moveImmediate 100 0) (mkT [] 0 0 zeros [])) = some (100, 1) := by decide

/-- V-MOV-6: the index does not wrap onto IP. -/
theorem test_moveImmediate_no_wrap :
    see (fun t => (t.status, t.ip)) (exec (.moveImmediate 0xDEAD 0xFFFFFFFFFFFFFFFC) (mkT [] 0 0 zeros [])) =
      some (.faulted .registerIndexOutOfRange, 0) := by decide

/-- V-STK-2: the last free cell. -/
theorem test_push_last_cell :
    see (fun t => (t.stk, t.sp)) (exec (.push 2) (mkT [] 0 3 [0, 0, 0xAB, 0, 0, 0, 0, 0] [(0, 1), (1, 2), (2, 3)])) =
      some ([(0, 1), (1, 2), (2, 3), (3, 0xAB)], 4) := by decide

/-- V-STK-3. -/
theorem test_push_full :
    see (fun t => (t.status, t.sp)) (exec (.push 0) (mkT [] 0 4 [9, 0, 0, 0, 0, 0, 0, 0] [(0, 1)])) =
      some (.faulted .stackOverflow, 4) := by decide

/-- V-STK-6: the cell read is `SP - 1`. -/
theorem test_pop :
    see (fun t => (t.gpr 5, t.sp, t.stk.read 3))
      (exec (.pop 5) (mkT [] 0 4 zeros [(0, 1), (1, 2), (2, 3), (3, 4)])) = some (4, 3, 4) := by decide

/-- V-FLT-1: the register test comes before the stack test. -/
theorem test_pop_bad_register_empty :
    see (fun t => t.status) (exec (.pop 8) (mkT [] 0 0 zeros [])) = some (.faulted .registerIndexOutOfRange) := by decide

/-- V-CTL-5. -/
theorem test_jump :
    see (fun t => (t.ip, t.status)) (exec (.jump 0xFFFFFFFFFFFFFFFF) (mkT [] 1 0 zeros [])) =
      some (0xFFFFFFFFFFFFFFFF, .running) := by decide

/-- V-OUT-1. -/
theorem test_outputRegister :
    see (fun t => (t.out, t.ip)) (exec (.outputRegister 0) (mkT [] 1 0 [100, 0, 0, 0, 0, 0, 0, 0] [])) =
      some ([{ index := 0, value := 100 }], 2) := by decide

/-- V-OUT-5. -/
theorem test_outputRegister_bad :
    see (fun t => (t.status, t.out)) (exec (.outputRegister 65535) (mkT [] 0 0 zeros [])) =
      some (.faulted .registerIndexOutOfRange, []) := by decide

/-- V-CTL-6. -/
theorem test_halt :
    see (fun t => (t.status, t.ip, t.sp)) (exec .halt (mkT [] 2 3 zeros [])) = some (.halted, 2, 3) := by decide

/-! ## The step, the transactions, the ports -/

/-- V-RST-2. -/
theorem test_step_powerOn :
    see (fun t => (t.status, t.ip, t.steps)) (step State.reset) =
      some (.faulted .instructionPointerOutOfBounds, 0, 1) := by decide

/-- V-FLT-3: the ceiling test comes before the IP test, and the step is not counted. -/
theorem test_step_ceiling :
    see (fun t => (t.status, t.steps)) (step (State.powerOn (cfgLimit 0))) = some (.faulted .stepLimitExceeded, 0) := by
  decide

/-- V-STEP-3, third step: a terminal state absorbs. -/
theorem test_step_terminal :
    see (fun t => (t.status, t.steps)) (step ((mkT [.halt] 0 0 zeros []).setStatus .halted)) = some (.halted, 0) := by
  decide

/-- An instruction placed at reset is the one the next step runs, with the operand bits above `nbits` 0. -/
theorem test_withFetchWord :
    see (fun t => (t.status, t.steps)) (step (State.reset.withFetchWord 8 0x06)) = some (.halted, 1) ∧
    see (fun t => t.ip) (step (State.reset.withFetchWord 72 (0x04 + 5 * 2 ^ 8))) = some 5 := by decide

/-- V-RST-4: a failed load changes nothing and gives its code. -/
theorem test_load_fails :
    load [1, 0, 0, 0, 0, 0, 0, 0, 0x07] (mkT [.halt] 2 0 zeros []) = (mkT [.halt] 2 0 zeros [], 2) := by decide

/-- V-RST-5, V-RST-6. -/
theorem test_preset_refused :
    presetGpr 0 5 (mkT [] 1 0 zeros []).countStep = none ∧ presetGpr 8 1 (mkT [] 0 0 zeros []) = none := by decide

/-- The pulses of an edge that runs `OutputRegister` with a preset asked for as well (R161). -/
theorem test_edge_run :
    clockEdge
        { rst := false, ldValid := false, ldByte := 0, ldLast := false, run := true, dbgWe := true, dbgAddr := 0,
          dbgWdata := 0 } (mkT [.outputRegister 3] 0 0 zeros []) =
      .next (((mkT [.outputRegister 3] 0 0 zeros []).countStep.emit 3 0).setIp 1,
        { ldDone := false, ldErr := 0, emit := some { index := 3, value := 0 }, dbgRefused := true }) := by rfl

/-- `dbg_oor` and the value 0 beside it (R161), and the codes after V-STK-3 (R172). -/
theorem test_levels :
    levels 8 ((mkT [] 7 4 zeros []).setStatus (.faulted .stackOverflow)) =
      { state := 2, reason := 2, ip := 7, sp := 4, dbgRdata := 0, dbgOor := true } := by decide

/-! ## Witnesses: every statement's hypotheses are met -/

theorem mkT_wf (p : Program) (hp : p.WellFormed) (ip sp : Word) (hsp : sp.toNat ≤ 4) (stk : Memory)
    (h1 : Memory.wf stk) (h2 : ∀ c ∈ stk, c.1 < 4) (gprs : List Word) (hg : gprs.length = 8) :
    WellFormedState (mkT p ip sp gprs stk) where
  cfg := by change Config.WellFormed Config.cfgT; decide
  regs := by simp [mkT, mk, hg, Config.nRegs, Config.cfgT, State.initial]
  sp := hsp
  canonical := h1
  cells := h2
  prog := hp
  steps := by
    intro m h
    cases h

/-- A state in the middle of the stack, about to run its program. -/
def mid (p : Program) : State := mkT p 0 2 zeros [(0, 7), (1, 8)]

theorem mid_wf (p : Program) (hp : p.WellFormed) : WellFormedState (mid p) :=
  mkT_wf p hp 0 2 (by decide) _ (by decide) (by decide) _ rfl

/-- The full and the empty stack. -/
def full (p : Program) : State := mkT p 0 4 zeros [(0, 7), (1, 8), (2, 9), (3, 10)]

theorem full_wf (p : Program) (hp : p.WellFormed) : WellFormedState (full p) :=
  mkT_wf p hp 0 4 (by decide) _ (by decide) (by decide) _ rfl

def empty (p : Program) : State := mkT p 0 0 zeros []

theorem empty_wf (p : Program) (hp : p.WellFormed) : WellFormedState (empty p) :=
  mkT_wf p hp 0 0 (by decide) _ (by decide) (by decide) _ rfl

theorem witness_ProgramsAndStreamsCorrespond :
    Program.WellFormed [] ∧ Program.WellFormed [.halt] ∧ decode [1, 0, 0, 0, 0, 0, 0, 0, 0x06] = .ok [.halt] := by decide

/-- The first and the last out-of-range tag. -/
theorem witness_OutOfRangeTagIsRefused :
    [Instr.halt].length < 2 ∧ 2 ≤ 2 ^ 64 - 1 ∧ 0x06 < (0x07 : Byte).toNat ∧ 0x06 < (0xFF : Byte).toNat := by decide

theorem witness_CutStreamIsTruncated :
    Program.WellFormed [.push 1] ∧ 0 < (encode [.push 1]).length ∧ 16 < (encode [.push 1]).length := by decide

theorem witness_ExtraBytesAreTrailing : Program.WellFormed [] := by decide

theorem witness_HeaderCountIsProgramLength :
    decode [1, 0, 0, 0, 0, 0, 0, 0, 0x06] = .ok [.halt] ∧
    (8 ≤ [1, 0, 0, 0, 0, 0, 0, (0 : Byte)].length ∧
      [1, 0, 0, 0, 0, 0, 0, (0 : Byte)].length - 8 < leValue ([1, 0, 0, 0, 0, 0, 0, 0].take 8)) ∧
    ([0, 0, 0, 0, 0, 0, 0, (0 : Byte)].length = 8 ∧ leValue [0, 0, 0, 0, 0, 0, 0, 0] = 0) := by decide

/-- The last good index 7, source and destination the same register and not. -/
theorem witness_MoveRegisterCopiesGpr :
    WellFormedState (mid []) ∧ (7 : Word).toNat < (mid []).cfg.nGpr ∧ (0 : Word).toNat < (mid []).cfg.nGpr :=
  ⟨mid_wf _ (by decide), by decide⟩

theorem witness_MoveImmediateLoadsGpr : WellFormedState (mid []) ∧ (7 : Word).toNat < (mid []).cfg.nGpr :=
  ⟨mid_wf _ (by decide), by decide⟩

/-- The first and the last cell. -/
theorem witness_PushStoresGprAtSp :
    (WellFormedState (empty []) ∧ (7 : Word).toNat < (empty []).cfg.nGpr ∧
      (empty []).sp.toNat < (empty []).cfg.stackCap) ∧
    (WellFormedState (mkT [] 0 3 zeros []) ∧ (mkT [] 0 3 zeros []).sp.toNat < (mkT [] 0 3 zeros []).cfg.stackCap) :=
  ⟨⟨empty_wf _ (by decide), by decide⟩,
    mkT_wf _ (by decide) 0 3 (by decide) _ (by decide) (by decide) _ rfl, by decide⟩

/-- The full stack. -/
theorem witness_PopLoadsGprFromBelowSp :
    WellFormedState (full []) ∧ (7 : Word).toNat < (full []).cfg.nGpr ∧ (full []).sp.toNat ≠ 0 :=
  ⟨full_wf _ (by decide), by decide⟩

theorem witness_JumpSetsIpToTarget : WellFormedState (mid [.jump 5]) := mid_wf _ (by decide)

theorem witness_OutputRegisterEmitsOneEvent :
    WellFormedState (mid []) ∧ (7 : Half).toNat < (mid []).cfg.nGpr :=
  ⟨mid_wf _ (by decide), by decide⟩

/-- The first bad index, the last `u64` and the last `u16`. -/
theorem witness_BadRegisterIndexFaults :
    (mid []).cfg.nGpr ≤ (8 : Word).toNat ∧ (mid []).cfg.nGpr ≤ (0xFFFFFFFFFFFFFFFF : Word).toNat ∧
      (mid []).cfg.nGpr ≤ (8 : Half).toNat ∧ (mid []).cfg.nGpr ≤ (65535 : Half).toNat := by decide

theorem witness_PushOnFullStackFaults :
    (0 : Word).toNat < (full []).cfg.nGpr ∧ (full []).sp.toNat = (full []).cfg.stackCap := by decide

theorem witness_PopOnEmptyStackFaults :
    (0 : Word).toNat < (empty []).cfg.nGpr ∧ (empty []).sp.toNat = 0 := by decide

theorem witness_StackPointerBeyondCapacityStops :
    (0 : Word).toNat < (mkT [] 0 5 zeros []).cfg.nGpr ∧
      (mkT [] 0 5 zeros []).cfg.stackCap < (mkT [] 0 5 zeros []).sp.toNat := by decide

/-- Both sides of the bound. -/
theorem witness_GprAccessIsBoundsChecked :
    WellFormedState (mid []) ∧ 7 < (mid []).cfg.nGpr ∧ (mid []).cfg.nGpr ≤ 8 :=
  ⟨mid_wf _ (by decide), by decide⟩

/-- The last good index. -/
theorem witness_GprNeverAliasesControl : WellFormedState (mid []) ∧ 7 < (mid []).cfg.nGpr :=
  ⟨mid_wf _ (by decide), by decide⟩

/-- A full stack for the first clause, one below it for the second. -/
theorem witness_StackPushWritesThenIncrements :
    (WellFormedState (full []) ∧ (full []).sp.toNat = (full []).cfg.stackCap) ∧
    (WellFormedState (mkT [] 0 3 zeros []) ∧ (mkT [] 0 3 zeros []).sp.toNat ≠ (mkT [] 0 3 zeros []).cfg.stackCap) :=
  ⟨⟨full_wf _ (by decide), by decide⟩,
    mkT_wf _ (by decide) 0 3 (by decide) _ (by decide) (by decide) _ rfl, by decide⟩

/-- An empty stack for the first clause, one value for the second. -/
theorem witness_StackPopDecrementsThenReads :
    (WellFormedState (empty []) ∧ (empty []).sp.toNat = 0) ∧
    (WellFormedState (mkT [] 0 1 zeros []) ∧ (mkT [] 0 1 zeros []).sp.toNat ≠ 0) :=
  ⟨⟨empty_wf _ (by decide), by decide⟩,
    mkT_wf _ (by decide) 0 1 (by decide) _ (by decide) (by decide) _ rfl, by decide⟩

theorem witness_StepRunsTheFetchedInstruction :
    ((mid [.halt]).status = .running ∧ (mid [.halt]).ceilingReached = false ∧
      (mid [.halt]).prog[(mid [.halt]).ip.toNat]? = some .halt) ∧
    (WellFormedState (mid []) ∧ (mid []).cfg.stepLimit ≠ some 0 ∧
      decode [1, 0, 0, 0, 0, 0, 0, 0, 0x06] = .ok (.halt :: [])) :=
  ⟨by decide, mid_wf _ (by decide), by decide, by decide⟩

/-- The ceiling just reached. -/
theorem witness_StepCeilingFaultsFirst :
    ((State.powerOn (cfgLimit 0)).status = .running ∧ (State.powerOn (cfgLimit 0)).cfg.stepLimit = some 0 ∧
      0 ≤ (State.powerOn (cfgLimit 0)).steps) ∧ (mid []).cfg.stepLimit = none := by decide

/-- `IP = L`; a jump to `L`; the last instruction; the empty program. -/
theorem witness_IpOutOfBoundsFaultsBeforeFetch :
    ((mid []).status = .running ∧ (mid []).ceilingReached = false ∧ (mid []).prog.length ≤ (mid []).ip.toNat) ∧
    (WellFormedState (mid [.jump 1]) ∧ (mid [.jump 1]).status = .running ∧ (mid [.jump 1]).ceilingReached = false ∧
      (mid [.jump 1]).fetch = some (.jump 1) ∧ (mid [.jump 1]).prog.length ≤ (1 : Word).toNat ∧
      ∃ t, step (mid [.jump 1]) = .next t ∧ t.ceilingReached = false) ∧
    (WellFormedState (mid [.push 0]) ∧ (mid [.push 0]).ceilingReached = false ∧
      (mid [.push 0]).ip.toNat + 1 = (mid [.push 0]).prog.length ∧
      (∀ target, (mid [.push 0]).fetch ≠ some (.jump target)) ∧
      ∃ t, step (mid [.push 0]) = .next t ∧ t.status = .running) ∧
    Config.cfgT.stepLimit ≠ some 0 :=
  ⟨by decide, ⟨mid_wf _ (by decide), by decide, by decide, by decide, by decide, _, rfl, by decide⟩,
    ⟨mid_wf _ (by decide), by decide, by decide, fun target h =>
      absurd (show some (Instr.push 0) = some (.jump target) from h) (by simp), _, rfl, by decide⟩, by decide⟩

theorem witness_TerminalStatesAbsorbSteps :
    ((mid []).setStatus .halted).status.terminal = true ∧
      ((mid []).setStatus (.faulted .stackOverflow)).status.terminal = true := by decide

/-- A reset, and a load, out of a terminal state. -/
theorem witness_TerminalStatusLeftOnlyByReset :
    ((mid []).setStatus .halted).status.terminal = true ∧
    (∃ t r, transact .reset ((mid []).setStatus .halted) = .next (t, r) ∧
      t.status ≠ ((mid []).setStatus .halted).status) ∧
    ∃ t r, transact (.load [0, 0, 0, 0, 0, 0, 0, 0]) ((mid []).setStatus .halted) = .next (t, r) ∧
      t.status ≠ ((mid []).setStatus .halted).status :=
  ⟨by decide, ⟨_, _, rfl, by decide⟩, ⟨_, _, rfl, by decide⟩⟩

theorem witness_StepFaultsExactlyByTheTable :
    WellFormedState (mid [.push 8]) ∧ (mid [.push 8]).status = .running :=
  ⟨mid_wf _ (by decide), by decide⟩

theorem witness_FaultChangesOnlyStatusAndSteps :
    (full [.push 0]).status = .running ∧
      ∃ t, step (full [.push 0]) = .next t ∧ t.status = .faulted .stackOverflow :=
  ⟨by decide, _, rfl, by decide⟩

/-- The smallest legal parameters, and the empty program. -/
theorem witness_ResetStateIsWellFormed :
    Config.WellFormed { nReserved := 2, nGpr := 0, stackCap := 0, stepLimit := some 0 } ∧ Program.WellFormed [] := by
  decide

theorem witness_PowerOnStepFaults : Config.cfgT.stepLimit ≠ some 0 := by decide

theorem witness_StepKeepsWellFormedness :
    WellFormedState (mid [.push 0]) ∧ ∃ t, step (mid [.push 0]) = .next t :=
  ⟨mid_wf _ (by decide), _, rfl⟩

theorem witness_WellFormedStatesAlwaysStep : WellFormedState (full [.push 0]) := full_wf _ (by decide)

theorem witness_TransactionsKeepWellFormedness : WellFormedState (mid [.push 0]) := mid_wf _ (by decide)

theorem witness_ClockEdgesKeepWellFormedness : WellFormedState (mid [.push 0]) := mid_wf _ (by decide)

/-- The first and the last reserved slot of `CFG_T`. -/
theorem witness_ReservedSlotsNeverChange :
    (2 < (mid [.push 0]).cfg.nReserved ∧ 3 < (mid [.push 0]).cfg.nReserved) ∧
      (∃ t, step (mid [.push 0]) = .next t) ∧ ∃ t, presetGpr 7 9 (mid [.push 0]) = some t :=
  ⟨by decide, ⟨_, rfl⟩, ⟨_, rfl⟩⟩

/-- A push, a pop and another instruction; for the count, runs through a push and a pop with two values before. -/
theorem witness_SpChangesOnlyByPushAndPop :
    (WellFormedState (mid [.push 0]) ∧ ∃ t, step (mid [.push 0]) = .next t ∧ t.sp = 3) ∧
    (WellFormedState (mid [.pop 0]) ∧ ∃ t, step (mid [.pop 0]) = .next t ∧ t.sp = 1) ∧
    (WellFormedState (mid [.halt]) ∧ ∃ t, step (mid [.halt]) = .next t) ∧
    (WellFormedState (mid [.push 0, .pop 1]) ∧ [(7 : Word), 8].length = (mid [.push 0, .pop 1]).sp.toNat ∧
      ∃ t, core.run 2 (mid [.push 0, .pop 1]) = .next t) :=
  ⟨⟨mid_wf _ (by decide), _, rfl, by decide⟩, ⟨mid_wf _ (by decide), _, rfl, by decide⟩,
    ⟨mid_wf _ (by decide), _, rfl⟩, ⟨mid_wf _ (by decide), by decide, _, rfl⟩⟩

/-- What is outstanding is counted from the instructions: one more after a push, one fewer after a pop, and none for
the pop that faults. -/
theorem test_outstanding :
    outstanding 1 (mid [.push 0]) [7, 8] = [7, 8, 0] ∧ outstanding 1 (mid [.pop 0]) [7, 8] = [7] ∧
      outstanding 1 (mid [.pop 8]) [7, 8] = [7, 8] := by decide

/-- A jump, an advancing instruction, and a halt. -/
theorem witness_IpAdvancesByOneOrJumps :
    (WellFormedState (mid [.jump 9]) ∧ (mid [.jump 9]).status = .running ∧
      ∃ t, step (mid [.jump 9]) = .next t ∧ t.status = .running) ∧
    (WellFormedState (mid [.push 0]) ∧ ∃ t, step (mid [.push 0]) = .next t ∧ t.status = .running) ∧
    (WellFormedState (mid [.halt]) ∧ ∃ t, step (mid [.halt]) = .next t ∧ t.status.terminal = true) :=
  ⟨⟨mid_wf _ (by decide), by decide, _, rfl, by decide⟩, ⟨mid_wf _ (by decide), _, rfl, by decide⟩,
    ⟨mid_wf _ (by decide), _, rfl, by decide⟩⟩

theorem witness_OnlyLoadsChangeTheProgram :
    (∃ t, step (mid [.halt]) = .next t) ∧
    (∃ t r, transact (.loadDirect [.halt]) (mid []) = .next (t, r) ∧ t.prog ≠ (mid []).prog) ∧
    ∃ t, core.run 1 (State.initial Config.cfgT [.halt]) = .next t :=
  ⟨⟨_, rfl⟩, ⟨_, _, rfl, by decide⟩, ⟨_, rfl⟩⟩

theorem witness_OutputGrowsOnlyByOutputRegister :
    (∃ t, step (mid [.outputRegister 7]) = .next t ∧ t.out ≠ (mid [.outputRegister 7]).out) ∧
      ∃ t, step (mid [.outputRegister 8]) = .next t ∧ t.out = (mid [.outputRegister 8]).out :=
  ⟨⟨_, rfl, by decide⟩, ⟨_, rfl, by decide⟩⟩

theorem witness_LiveStackIsLastInFirstOut :
    (WellFormedState (mid [.pop 3]) ∧ ∃ t, step (mid [.pop 3]) = .next t ∧ liveStack t = [7]) ∧
      liveStack (mid [.pop 3]) = [7, 8] :=
  ⟨⟨mid_wf _ (by decide), _, rfl, by decide⟩, by decide⟩

theorem witness_LiveCellsHoldOutstandingPushes :
    WellFormedState (mid [.push 0, .pop 1]) ∧ ∃ t, core.run 2 (mid [.push 0, .pop 1]) = .next t :=
  ⟨mid_wf _ (by decide), _, rfl⟩

/-- Two pushes that fill the stack, and two pops. -/
theorem witness_PushesThenPopsReverse :
    WellFormedState (mid []) ∧ [(0 : Word), 0].length = [(3 : Word), 7].length ∧
      (mid []).sp.toNat + [(0 : Word), 0].length ≤ (mid []).cfg.stackCap ∧ [(3 : Word), 7].Nodup ∧
      (∀ r ∈ [(0 : Word), 0], r.toNat < (mid []).cfg.nGpr) ∧ ∀ r ∈ [(3 : Word), 7], r.toNat < (mid []).cfg.nGpr :=
  ⟨mid_wf _ (by decide), by decide, by decide, by decide,
    List.forall_mem_cons.2 ⟨by decide, List.forall_mem_singleton.2 (by decide)⟩,
    List.forall_mem_cons.2 ⟨by decide, List.forall_mem_singleton.2 (by decide)⟩⟩

theorem witness_StepLimitEndsEveryRun :
    WellFormedState (State.initial (cfgLimit 5) [.jump 0]) ∧
      (State.initial (cfgLimit 5) [.jump 0]).cfg.stepLimit = some 5 :=
  ⟨⟨by decide, by decide, by decide, by decide, by decide, by decide, fun _ _ => Nat.zero_le _⟩, by decide⟩

/-- Two states that differ in a GPR and in a live stack cell. -/
theorem witness_ControlFlowIgnoresData :
    WellFormedState (mkT [.pop 0] 0 1 [5, 0, 0, 0, 0, 0, 0, 0] [(0, 6)]) ∧ WellFormedState (mkT [.pop 0] 0 1 zeros []) ∧
      SameControl (mkT [.pop 0] 0 1 [5, 0, 0, 0, 0, 0, 0, 0] [(0, 6)]) (mkT [.pop 0] 0 1 zeros []) :=
  ⟨mkT_wf _ (by decide) 0 1 (by decide) _ (by decide) (by decide) _ rfl,
    mkT_wf _ (by decide) 0 1 (by decide) _ (by decide) (by decide) _ rfl, ⟨rfl, rfl, rfl, rfl, rfl, rfl⟩⟩

/-- Two states that differ in a dead stack cell. -/
theorem witness_DeadStateIsUnobservable :
    WellFormedState (mkT [.push 0] 0 1 zeros [(0, 6), (2, 9)]) ∧ WellFormedState (mkT [.push 0] 0 1 zeros [(0, 6)]) ∧
      SameObservable (mkT [.push 0] 0 1 zeros [(0, 6), (2, 9)]) (mkT [.push 0] 0 1 zeros [(0, 6)]) :=
  ⟨mkT_wf _ (by decide) 0 1 (by decide) _ (by decide) (by decide) _ rfl,
    mkT_wf _ (by decide) 0 1 (by decide) _ (by decide) (by decide) _ rfl,
    ⟨⟨rfl, rfl, rfl, rfl, rfl, rfl⟩, rfl, fun _ _ => rfl, fun k hk => by
      have hk : k < 1 := hk
      have h0 : k = 0 := by omega
      rw [h0]
      rfl⟩⟩

theorem witness_FailedLoadChangesNothing : decode [] = .error .truncated := by decide

theorem witness_SuccessfulLoadInstallsAndResets : decode [0, 0, 0, 0, 0, 0, 0, 0] = .ok [] := by decide

theorem witness_LoadDirectIsLoadOfEncoding :
    Program.WellFormed [.halt] ∧ ¬ Program.WellFormed (List.replicate (2 ^ 64) Instr.halt) :=
  ⟨by decide, test_program_too_long⟩

/-- R153, R160: a program is installed with result code 0. -/
theorem test_loadDirect_answers_code :
    transact (.loadDirect [.halt]) (mid []) = .next (State.initial Config.cfgT [.halt], .loadResult 0) := rfl

/-- The window open, and each of the three ways to be outside it. -/
theorem witness_PresetOnlyBeforeTheFirstStep :
    (WellFormedState (mid []) ∧ (mid []).status = .running ∧ (mid []).steps = 0 ∧
      (7 : Word).toNat < (mid []).cfg.nGpr) ∧
    ((mid []).setStatus .halted).status ≠ .running ∧ (mid []).countStep.steps ≠ 0 ∧
    (mid []).cfg.nGpr ≤ (8 : Word).toNat :=
  ⟨⟨mid_wf _ (by decide), by decide⟩, by decide⟩

theorem witness_HostReadsChangeNothing :
    (7 : Word).toNat < (mid []).cfg.nGpr ∧ (mid []).cfg.nGpr ≤ (8 : Word).toNat := by decide

/-- A preset that is carried out, and a read. -/
theorem witness_HostCannotWriteControl :
    WellFormedState (mid []) ∧ (∃ t r, transact (.presetGpr 7 9) (mid []) = .next (t, r) ∧ t ≠ mid []) ∧
      ∃ t r, transact .readStatus (mid []).countStep = .next (t, r) ∧ t.steps ≠ 0 :=
  ⟨mid_wf _ (by decide), ⟨_, _, rfl, by decide⟩, ⟨_, _, rfl, by decide⟩⟩

/-- An edge that presents a byte, with `run` and `dbg_we` high. -/
def byteEdge (b : Byte) (isLast : Bool) : Inputs :=
  { rst := false, ldValid := true, ldByte := b, ldLast := isLast, run := true, dbgWe := true, dbgAddr := 0, dbgWdata := 1 }

/-- An edge with no byte. -/
def plainEdge (rst run dbgWe : Bool) (dbgAddr : Word) : Inputs :=
  { rst := rst, ldValid := false, ldByte := 0, ldLast := false, run := run, dbgWe := dbgWe, dbgAddr := dbgAddr,
    dbgWdata := 1 }

/-- A stream of three bytes, and one whose first byte is its last. -/
theorem witness_SerialLoadIsLoad :
    (mid []).loader = .idle ∧ (∀ i ∈ ([] : List Inputs), i.rst = false ∧ i.ldValid = true ∧ i.ldLast = false) ∧
      (∀ i ∈ [byteEdge 0 false, byteEdge 0 false], i.rst = false ∧ i.ldValid = true ∧ i.ldLast = false) ∧
      (byteEdge 6 true).rst = false ∧ (byteEdge 6 true).ldValid = true ∧ (byteEdge 6 true).ldLast = true ∧
      (plainEdge false true true 0).rst = false ∧ (plainEdge false true true 0).ldValid = false := by decide

/-- `rst` beside every other request; a run with a preset beside it; a preset in its window at the last good address;
each of the three ways for it to be refused; an edge with no request. -/
theorem witness_ResetWinsAndRunBeatsPreset :
    (plainEdge true true true 0).rst = true ∧
    ((plainEdge false true true 0).rst = false ∧ (mid [.halt]).loader = .idle ∧
      (plainEdge false true true 0).ldValid = false ∧ (plainEdge false true true 0).run = true ∧
      ∃ t, step (mid [.halt]) = .next t) ∧
    ((plainEdge false false true 7).run = false ∧ (plainEdge false false true 7).dbgWe = true ∧
      WellFormedState (mid []) ∧ (mid []).status = .running ∧ (mid []).steps = 0 ∧
      (plainEdge false false true 7).dbgAddr.toNat < (mid []).cfg.nGpr) ∧
    (((mid []).setStatus .halted).status ≠ .running ∧ (mid []).countStep.steps ≠ 0 ∧
      (mid []).cfg.nGpr ≤ (plainEdge false false true 8).dbgAddr.toNat) ∧
    (plainEdge false false false 0).dbgWe = false :=
  ⟨by decide, ⟨by decide, by decide, by decide, by decide, _, rfl⟩,
    ⟨by decide, by decide, mid_wf _ (by decide), by decide⟩, by decide, by decide⟩

/-- `rst` and `dbg_we` on one edge: no pulse (log 10). -/
theorem test_edge_rst_beats_preset :
    clockEdge (plainEdge true false true 8) (mid []) = .next (hostReset (mid []), quiet) := by rfl

theorem witness_ContinuousOutputsFollowTheState :
    (7 : Word).toNat < (mid []).cfg.nGpr ∧ (mid []).cfg.nGpr ≤ (8 : Word).toNat := by decide

end Sys2Proof.Tests
end

section
/-! The reset state (R44) and the invariant: what the registers of `State.initial` read, and that it is well formed
for every legal choice of parameters and program. -/

namespace Sys2Proof.Machine

open Sys2Proof

@[simp] theorem initial_x_length (cfg : Config) (p : Program) : (State.initial cfg p).x.length = cfg.nRegs :=
  List.length_replicate

/-- Inside the register file a register reads its reset value, beyond it the default: 0 either way. -/
@[simp] theorem initial_xread (cfg : Config) (p : Program) (i : Nat) : (State.initial cfg p).xread i = 0 := by
  simp only [State.xread, State.initial, List.getD_eq_getElem?_getD, List.getElem?_getD_replicate_default_eq]

@[simp] theorem initial_sp (cfg : Config) (p : Program) : (State.initial cfg p).sp = 0 :=
  initial_xread cfg p spIndex

/-- The base case of the invariant: no cell is listed, SP and the step counter are 0, and the checks on parameters
and program are the two hypotheses. -/
theorem initial_wf {cfg : Config} {p : Program} (hcfg : cfg.WellFormed) (hp : p.WellFormed) :
    WellFormedState (State.initial cfg p) where
  cfg := hcfg
  regs := initial_x_length cfg p
  sp := by simp
  canonical := ⟨List.Pairwise.nil, List.forall_mem_nil _⟩
  cells := List.forall_mem_nil _
  prog := hp
  steps := fun m _ => Nat.zero_le m

/-- `CFG_T` meets R6, so the power-on state of the model does (R201, log 1). -/
theorem reset_wf : WellFormedState State.reset :=
  initial_wf (cfg := Config.cfgT) (p := []) (by decide) (by decide)

/-- Settles O31: `State.initial` is well formed field by field, and `State.reset` is an instance of it. -/
theorem resetStateIsWellFormed : Obligations.ResetStateIsWellFormed :=
  ⟨fun _ _ => initial_wf, reset_wf⟩

end Sys2Proof.Machine
end

section
/-! The access primitives (R38 to R42) and `Reset` (R44), from the laws of `Laws/Access` and of the reset state. -/

namespace Sys2Proof.Machine

open Sys2Proof

theorem x_length_pos {s : State} (h : WellFormedState s) : 0 < s.x.length := Nat.zero_lt_of_lt (two_le_x_length h)

/-- R23, R28: no GPR is IP. -/
theorem gprIndex_ne_ip {s : State} (h : WellFormedState s) (j : Nat) : gprIndex s.cfg j ≠ ipIndex := by
  have h2 := two_le_gprIndex h j
  simp only [ipIndex]
  omega

/-- R23, R28: no GPR is SP. -/
theorem gprIndex_ne_sp {s : State} (h : WellFormedState s) (j : Nat) : gprIndex s.cfg j ≠ spIndex := by
  have h2 := two_le_gprIndex h j
  simp only [spIndex]
  omega

/-- A write at a GPR's physical register leaves every register below the GPRs alone (R23, R28). -/
theorem xwrite_gprIndex_xread_of_lt {s : State} {i : Nat} (hi : i < s.cfg.nReserved) (j : Nat) (v : Word) :
    (s.xwrite (gprIndex s.cfg j) v).xread i = s.xread i :=
  xread_xwrite_ne (by rw [gprIndex_eq]; omega) v

theorem xwrite_gprIndex_ip {s : State} (h : WellFormedState s) (j : Nat) (v : Word) :
    (s.xwrite (gprIndex s.cfg j) v).ip = s.ip :=
  xread_xwrite_ne (gprIndex_ne_ip h j).symm v

theorem xwrite_gprIndex_sp {s : State} (h : WellFormedState s) (j : Nat) (v : Word) :
    (s.xwrite (gprIndex s.cfg j) v).sp = s.sp :=
  xread_xwrite_ne (gprIndex_ne_sp h j).symm v

theorem setStk_setSp_sp {s : State} (h : WellFormedState s) (m : Memory) (v : Word) :
    ((s.setStk m).setSp v).sp = v := by
  have hx : 1 < s.x.length := two_le_x_length h
  exact setSp_sp (s := s.setStk m) hx v

/-- The increment of R25 and R27 is exact below the largest word. -/
theorem toNat_add_one {v : Word} {n : Nat} (h : v.toNat < n) (hn : n ≤ 2 ^ 64 - 1) :
    (v + 1).toNat = v.toNat + 1 := by
  have h1 : (1 : Word).toNat = 1 := rfl
  rw [BitVec.toNat_add_of_lt (by omega), h1]

theorem stackCap_le {s : State} (h : WellFormedState s) : s.cfg.stackCap ≤ 2 ^ 64 - 1 := h.cfg.2.2.1

/-- R27: with room on the stack the increment of SP is exact. -/
theorem sp_add_one_toNat {s : State} (h : WellFormedState s) (hroom : s.sp.toNat < s.cfg.stackCap) :
    (s.sp + 1).toNat = s.sp.toNat + 1 :=
  toNat_add_one hroom (stackCap_le h)

/-- R27: with a value on the stack SP stays within it after the decrement. -/
theorem sp_sub_one_le {s : State} (h : WellFormedState s) (h0 : s.sp.toNat ≠ 0) :
    (s.sp - 1).toNat ≤ s.cfg.stackCap := by
  rw [sp_sub_one h0]
  exact Nat.le_trans (Nat.sub_le _ _) h.sp

/-- R28 at its corner: the index that modular addition would map onto IP is no GPR's. -/
theorem nGpr_le_wrapping_index {s : State} (h : WellFormedState s) :
    s.cfg.nGpr ≤ (BitVec.ofNat 64 (2 ^ 64 - s.cfg.nReserved)).toNat := by
  obtain ⟨h2, hsum, -, -⟩ := h.cfg
  rw [BitVec.toNat_ofNat, Nat.mod_eq_of_lt (by omega)]
  omega

/-- Settles O19: the tests and the two accesses are the laws of `Laws/Access`; a good write is a register write. -/
theorem gprAccessIsBoundsChecked : Obligations.GprAccessIsBoundsChecked := by
  refine ⟨fun c j => gprOk_iff c _, fun c j => gprOk_iff c _, fun _ _ => readGpr_of_lt, fun _ _ => readGpr_of_le,
    fun s j v h hj => ?_, fun _ _ v hj => writeGpr_of_le hj v⟩
  exact ⟨_, writeGpr_of_lt hj v, xread_xwrite_same (gprIndex_lt h hj) v, fun i hi => xread_xwrite_ne hi v,
    rfl, rfl, rfl, rfl, rfl, rfl, rfl⟩

/-- Settles O20: a good index lands in `N_RESERVED .. N_REGS - 1`, and the wrapping index is not good. -/
theorem gprNeverAliasesControl : Obligations.GprNeverAliasesControl := by
  intro s v h
  have hbad := nGpr_le_wrapping_index h
  refine ⟨fun j hj => ?_, readGpr_of_le hbad, writeGpr_of_le hbad v⟩
  have hlt : gprIndex s.cfg j < s.cfg.nRegs := Nat.add_lt_add_left hj _
  exact ⟨⟨gprIndex s.cfg j, Nat.le_add_right _ _, hlt, readGpr_of_lt hj⟩, _, writeGpr_of_lt hj v,
    xwrite_gprIndex_ip h j v, xwrite_gprIndex_sp h j v, fun i hi => xwrite_gprIndex_xread_of_lt hi j v, hlt⟩

/-- Settles O21: the full stack and the room below its capacity, where the increment is exact. -/
theorem stackPushWritesThenIncrements : Obligations.StackPushWritesThenIncrements := by
  refine fun s v h => ⟨fun hfull => stackPush_of_full hfull v, fun hne => ?_⟩
  have hroom : s.sp.toNat < s.cfg.stackCap := Nat.lt_of_le_of_ne h.sp hne
  refine ⟨_, stackPush_of_room hroom v, ?_, ?_, fun k hk => ?_, fun i hi => setSp_xread hi _, rfl, rfl,
    rfl, rfl, rfl, rfl⟩
  · simp [memory_read_write h.canonical]
  · rw [setStk_setSp_sp h, sp_add_one_toNat h hroom]
  · simp [memory_read_write h.canonical, hk]

/-- Settles O22: the empty stack and a stack with a value, whose cell at the new SP is read. -/
theorem stackPopDecrementsThenReads : Obligations.StackPopDecrementsThenReads := by
  refine fun s h => ⟨stackPop_of_empty, fun h0 => ?_⟩
  have hx := two_le_x_length h
  have hsp : (s.setSp (s.sp - 1)).sp.toNat = s.sp.toNat - 1 := by rw [setSp_sp hx, sp_sub_one h0]
  exact ⟨_, _, stackPop_of_some hx h0 h.sp, by omega, by rw [hsp], rfl, fun i hi => setSp_xread hi _, rfl, rfl,
    rfl, rfl, rfl, rfl⟩

/-- Settles O30: `hostReset` is the reset state of the program it keeps, whose registers all read 0. -/
theorem resetGivesTheInitialState : Obligations.ResetGivesTheInitialState :=
  fun _ => ⟨rfl, initial_xread _ _ ipIndex, initial_sp _ _, initial_xread _ _, initial_x_length _ _,
    memory_read_nil, rfl, rfl, rfl, rfl, rfl⟩

end Sys2Proof.Machine
end

section
/-! What an instruction does when it completes, as one function, and what `exec` and `step` answer in its terms: the
inversions that every later proof about a step cites. -/

namespace Sys2Proof.Machine

open Sys2Proof

/-- The state an instruction leaves when no test of R171 stops it (R110, R111, R120, R121, R130, R131, R140). -/
def effect (i : Instr) (s : State) : State :=
  match i with
  | .moveRegister src dst => (s.xwrite (gprIndex s.cfg dst.toNat) (s.gpr src.toNat)).advance
  | .moveImmediate value dst => (s.xwrite (gprIndex s.cfg dst.toNat) value).advance
  | .push reg => ((s.setStk (s.stk.write s.sp.toNat (s.gpr reg.toNat))).setSp (s.sp + 1)).advance
  | .pop reg => ((s.setSp (s.sp - 1)).xwrite (gprIndex s.cfg reg.toNat) (s.stk.read (s.sp.toNat - 1))).advance
  | .jump target => s.setIp target
  | .outputRegister index => (s.emit index (s.gpr index.toNat)).advance
  | .halt => s.setStatus .halted

section InstrFault

variable {s : State}

/-! ### The table of R171, row by row: when an instruction has no fault -/

theorem instrFault_moveRegister_eq_none {src dst : Word} :
    instrFault (.moveRegister src dst) s = none ↔ src.toNat < s.cfg.nGpr ∧ dst.toNat < s.cfg.nGpr := by
  simp [instrFault]

theorem instrFault_moveImmediate_eq_none {value dst : Word} :
    instrFault (.moveImmediate value dst) s = none ↔ dst.toNat < s.cfg.nGpr := by
  simp [instrFault]

theorem instrFault_push_eq_none {reg : Word} :
    instrFault (.push reg) s = none ↔ reg.toNat < s.cfg.nGpr ∧ s.sp.toNat ≠ s.cfg.stackCap := by
  by_cases hr : s.cfg.nGpr ≤ reg.toNat <;> simp [instrFault, hr, ← Nat.not_le]

theorem instrFault_pop_eq_none {reg : Word} :
    instrFault (.pop reg) s = none ↔ reg.toNat < s.cfg.nGpr ∧ s.sp.toNat ≠ 0 := by
  by_cases hr : s.cfg.nGpr ≤ reg.toNat <;> simp [instrFault, hr, ← Nat.not_le]

theorem instrFault_outputRegister_eq_none {index : Half} :
    instrFault (.outputRegister index) s = none ↔ index.toNat < s.cfg.nGpr := by
  simp [instrFault]

end InstrFault

/-! ### What `exec` answers -/

/-- A register that does not read 0 is there. -/
theorem one_lt_x_length_of_sp_ne_zero {s : State} (h : s.sp.toNat ≠ 0) : 1 < s.x.length := by
  by_contra hx
  have h0 : s.sp = 0 := by simp [State.sp, State.xread, spIndex, Nat.not_lt.1 hx]
  exact h (by rw [h0]; rfl)

theorem stackPop_of_beyond {s : State} (h : s.cfg.stackCap < s.sp.toNat) :
    stackPop s = .error (.stuck .stackCellAbsent) := by
  have h0 : s.sp.toNat ≠ 0 := by omega
  have hk : ¬ s.sp.toNat - 1 < s.cfg.stackCap := by omega
  simp only [stackPop, memRead, writeControl, if_neg h0, setSp_sp (one_lt_x_length_of_sp_ne_zero h0), sp_sub_one h0,
    setSp_cfg, if_neg hk, bind, Except.bind]

/-- An instruction the table of R171 gives a reason ends with that fault alone, in every state. -/
theorem exec_of_fault {i : Instr} {s : State} {r : FaultReason} (h : instrFault i s = some r) :
    exec i s = .next (s.setStatus (.faulted r)) := by
  cases i with
  | moveRegister src dst =>
    obtain ⟨hbad, rfl⟩ : (s.cfg.nGpr ≤ src.toNat ∨ s.cfg.nGpr ≤ dst.toNat) ∧ .registerIndexOutOfRange = r := by
      simpa only [instrFault, Option.ite_none_right_eq_some, Option.some.injEq] using h
    rcases Nat.lt_or_ge src.toNat s.cfg.nGpr with hs | hs
    · have hd : s.cfg.nGpr ≤ dst.toNat := by omega
      simp [exec, execMoveRegister, readGpr_of_lt hs, writeGpr_of_le hd, bind, Except.bind]
    · simp [exec, execMoveRegister, readGpr_of_le hs, bind, Except.bind]
  | moveImmediate value dst =>
    obtain ⟨hd, rfl⟩ : s.cfg.nGpr ≤ dst.toNat ∧ .registerIndexOutOfRange = r := by
      simpa only [instrFault, Option.ite_none_right_eq_some, Option.some.injEq] using h
    simp [exec, execMoveImmediate, writeGpr_of_le hd, bind, Except.bind]
  | push reg =>
    rcases Nat.lt_or_ge reg.toNat s.cfg.nGpr with hr | hr
    · obtain ⟨hfull, rfl⟩ : s.sp.toNat = s.cfg.stackCap ∧ .stackOverflow = r := by
        simpa only [instrFault, if_neg (Nat.not_le.2 hr), Option.ite_none_right_eq_some, Option.some.injEq] using h
      simp [exec, execPush, readGpr_of_lt hr, stackPush_of_full hfull, bind, Except.bind]
    · obtain rfl : .registerIndexOutOfRange = r := by
        simpa only [instrFault, if_pos hr, Option.some.injEq] using h
      simp [exec, execPush, readGpr_of_le hr, bind, Except.bind]
  | pop reg =>
    rcases Nat.lt_or_ge reg.toNat s.cfg.nGpr with hr | hr
    · obtain ⟨h0, rfl⟩ : s.sp.toNat = 0 ∧ .stackUnderflow = r := by
        simpa only [instrFault, if_neg (Nat.not_le.2 hr), Option.ite_none_right_eq_some, Option.some.injEq] using h
      simp [exec, execPop, requireGpr_of_lt hr, stackPop_of_empty h0, bind, Except.bind]
    · obtain rfl : .registerIndexOutOfRange = r := by
        simpa only [instrFault, if_pos hr, Option.some.injEq] using h
      simp [exec, execPop, requireGpr_of_le hr, bind, Except.bind]
  | jump target => simp [instrFault] at h
  | outputRegister index =>
    obtain ⟨hi, rfl⟩ : s.cfg.nGpr ≤ index.toNat ∧ .registerIndexOutOfRange = r := by
      simpa only [instrFault, Option.ite_none_right_eq_some, Option.some.injEq] using h
    simp [exec, execOutputRegister, readGpr_of_le hi, bind, Except.bind]
  | halt => simp [instrFault] at h

/-- An instruction the table gives no reason completes; only where SP is beyond the stack, which no run reaches, the
model stops instead (log 3). -/
theorem exec_of_no_fault {i : Instr} {s : State} (h : instrFault i s = none) :
    exec i s = .next (effect i s) ∨ (s.cfg.stackCap < s.sp.toNat ∧ exec i s = .fault .stackCellAbsent) := by
  cases i with
  | moveRegister src dst =>
    obtain ⟨hs, hd⟩ := instrFault_moveRegister_eq_none.1 h
    left
    simp [exec, execMoveRegister, readGpr_of_lt hs, writeGpr_of_lt hd, effect, bind, Except.bind, pure, Except.pure]
  | moveImmediate value dst =>
    have hd := instrFault_moveImmediate_eq_none.1 h
    left
    simp [exec, execMoveImmediate, writeGpr_of_lt hd, effect, bind, Except.bind, pure, Except.pure]
  | push reg =>
    obtain ⟨hr, hne⟩ := instrFault_push_eq_none.1 h
    rcases Nat.lt_or_gt_of_ne hne with hroom | hbeyond
    · left
      simp [exec, execPush, readGpr_of_lt hr, stackPush_of_room hroom, effect, bind, Except.bind, pure, Except.pure]
    · right
      simp [hbeyond, exec, execPush, readGpr_of_lt hr, stackPush_of_beyond hbeyond, bind, Except.bind]
  | pop reg =>
    obtain ⟨hr, h0⟩ := instrFault_pop_eq_none.1 h
    rcases Nat.lt_or_ge s.cfg.stackCap s.sp.toNat with hbeyond | hsp
    · right
      simp [hbeyond, exec, execPop, requireGpr_of_lt hr, stackPop_of_beyond hbeyond, bind, Except.bind]
    · have hw := writeGpr_of_lt (s := s.setSp (s.sp - 1)) hr (s.stk.read (s.sp.toNat - 1))
      left
      simp only [exec, execPop, requireGpr_of_lt hr, stackPop_of_some (one_lt_x_length_of_sp_ne_zero h0) h0 hsp, hw,
        setSp_cfg, finish_ok, effect, bind, Except.bind, pure, Except.pure]
  | jump target => exact .inl rfl
  | outputRegister index =>
    have hi := instrFault_outputRegister_eq_none.1 h
    left
    simp [exec, execOutputRegister, readGpr_of_lt hi, effect, bind, Except.bind, pure, Except.pure]
  | halt => exact .inl rfl

theorem exec_of_completes {i : Instr} {s : State} (h : instrFault i s = none)
    (hsp : s.sp.toNat ≤ s.cfg.stackCap) : exec i s = .next (effect i s) :=
  (exec_of_no_fault h).resolve_right fun hstop => Nat.not_lt.2 hsp hstop.1

/-- The next states of an instruction, in every state: its fault alone, or its whole effect. -/
theorem exec_next {i : Instr} {s t : State} (h : exec i s = .next t) :
    (∃ r, instrFault i s = some r ∧ t = s.setStatus (.faulted r)) ∨ (instrFault i s = none ∧ t = effect i s) := by
  cases hf : instrFault i s with
  | some r =>
    rw [exec_of_fault hf, Host.Outcome.next.injEq] at h
    exact .inl ⟨r, rfl, h.symm⟩
  | none =>
    rcases exec_of_no_fault hf with he | ⟨-, he⟩
    · rw [he, Host.Outcome.next.injEq] at h
      exact .inr ⟨rfl, h.symm⟩
    · rw [he] at h
      cases h

/-! ### What `step` answers -/

/-- The outcomes of a step (R100): it absorbs, it raises a fault before or after it is counted, or the fetched
instruction completes in the counted state. -/
inductive StepOutcome (s : State) : State → Prop where
  | absorbs (hterm : s.status.terminal = true) : StepOutcome s s
  | faultsUncounted (hrun : s.status = .running) (r : FaultReason) : StepOutcome s (s.setStatus (.faulted r))
  | faultsCounted (hrun : s.status = .running) (hceil : s.ceilingReached = false) (r : FaultReason) :
    StepOutcome s (s.countStep.setStatus (.faulted r))
  | completes (hrun : s.status = .running) (hceil : s.ceilingReached = false) (i : Instr)
    (hfetch : s.fetch = some i) (hok : instrFault i s.countStep = none) : StepOutcome s (effect i s.countStep)

theorem step_outcome {s t : State} (h : step s = .next t) : StepOutcome s t := by
  rcases step_next h with ⟨hterm, rfl⟩ | ⟨hrun, -, rfl⟩ | ⟨hrun, hceil, -, rfl⟩ | ⟨hrun, hceil, i, hfetch, hexec⟩
  · exact .absorbs hterm
  · exact .faultsUncounted hrun _
  · exact .faultsCounted hrun hceil _
  · rcases exec_next hexec with ⟨r, -, rfl⟩ | ⟨hok, rfl⟩
    · exact .faultsCounted hrun hceil r
    · exact .completes hrun hceil i hfetch hok

theorem step_of_terminal {s : State} (h : s.status.terminal = true) : step s = .next s := by
  simp [step, h]

theorem step_of_ceiling {s : State} (hrun : s.status = .running) (hceil : s.ceilingReached = true) :
    step s = .next (s.setStatus (.faulted .stepLimitExceeded)) := by
  simp [step, hrun, Status.terminal, hceil]

theorem step_of_no_fetch {s : State} (hrun : s.status = .running) (hceil : s.ceilingReached = false)
    (hfetch : s.fetch = none) :
    step s = .next (s.countStep.setStatus (.faulted .instructionPointerOutOfBounds)) := by
  have hcounted : s.countStep.fetch = none := hfetch
  simp [step, hrun, Status.terminal, hceil, hcounted]

theorem step_of_fetch {s : State} {i : Instr} (hrun : s.status = .running) (hceil : s.ceilingReached = false)
    (hfetch : s.fetch = some i) : step s = exec i s.countStep := by
  have hcounted : s.countStep.fetch = some i := hfetch
  simp [step, hrun, Status.terminal, hceil, hcounted]

end Sys2Proof.Machine
end

section
/-! The invariant, operation by operation: what each update of the state needs to keep `WellFormedState`, and from
these that every instruction and every step keeps it. -/

namespace Sys2Proof.Machine

open Sys2Proof

section Operations

variable {s : State}

theorem wf_setStatus (h : WellFormedState s) (st : Status) : WellFormedState (s.setStatus st) :=
  ⟨h.cfg, h.regs, h.sp, h.canonical, h.cells, h.prog, h.steps⟩

theorem wf_emit (h : WellFormedState s) (i : Half) (v : Word) : WellFormedState (s.emit i v) :=
  ⟨h.cfg, h.regs, h.sp, h.canonical, h.cells, h.prog, h.steps⟩

theorem wf_setStk (h : WellFormedState s) {m : Memory} (hm : m.wf) (hcells : ∀ c ∈ m, c.1 < s.cfg.stackCap) :
    WellFormedState (s.setStk m) :=
  ⟨h.cfg, h.regs, h.sp, hm, hcells, h.prog, h.steps⟩

/-- Below the ceiling one more step may be counted (R34, R101). -/
theorem steps_lt_of_ceilingReached_eq_false {m : Nat} (hlimit : s.cfg.stepLimit = some m)
    (h : s.ceilingReached = false) : s.steps < m := by
  simpa [State.ceilingReached, hlimit] using h

theorem wf_countStep (h : WellFormedState s) (hceil : s.ceilingReached = false) : WellFormedState s.countStep :=
  ⟨h.cfg, h.regs, h.sp, h.canonical, h.cells, h.prog,
    fun _ hlimit => steps_lt_of_ceilingReached_eq_false hlimit hceil⟩

/-- A register write keeps the invariant when it does not reach SP. -/
theorem wf_xwrite (h : WellFormedState s) {i : Nat} (hi : i ≠ spIndex) (v : Word) : WellFormedState (s.xwrite i v) := by
  have hsp : (s.xwrite i v).sp = s.sp := xread_xwrite_ne hi.symm v
  exact ⟨h.cfg, (xwrite_x_length s i v).trans h.regs, hsp ▸ h.sp, h.canonical, h.cells, h.prog, h.steps⟩

theorem wf_setIp (h : WellFormedState s) (v : Word) : WellFormedState (s.setIp v) := wf_xwrite h (by decide) v

theorem wf_advance (h : WellFormedState s) : WellFormedState s.advance := wf_setIp h _

theorem wf_xwrite_gprIndex (h : WellFormedState s) (j : Nat) (v : Word) :
    WellFormedState (s.xwrite (gprIndex s.cfg j) v) :=
  wf_xwrite h (gprIndex_ne_sp h j) v

/-- A write of SP keeps the invariant when the value is within the stack (R27). -/
theorem wf_setSp (h : WellFormedState s) {v : Word} (hv : v.toNat ≤ s.cfg.stackCap) : WellFormedState (s.setSp v) := by
  have hsp : (s.setSp v).sp.toNat ≤ s.cfg.stackCap := by rwa [setSp_sp (two_le_x_length h)]
  exact ⟨h.cfg, (xwrite_x_length s spIndex v).trans h.regs, hsp, h.canonical, h.cells, h.prog, h.steps⟩

end Operations

/-- An instruction that completes keeps the invariant: `Push` has a free cell, `Pop` a value. -/
theorem wf_effect {i : Instr} {s : State} (h : WellFormedState s) (hok : instrFault i s = none) :
    WellFormedState (effect i s) := by
  cases i with
  | moveRegister src dst => exact wf_advance (wf_xwrite_gprIndex h _ _)
  | moveImmediate value dst => exact wf_advance (wf_xwrite_gprIndex h _ _)
  | push reg =>
    obtain ⟨-, hne⟩ := instrFault_push_eq_none.1 hok
    have hroom : s.sp.toNat < s.cfg.stackCap := Nat.lt_of_le_of_ne h.sp hne
    have hsp : (s.sp + 1).toNat ≤ s.cfg.stackCap := by
      rw [sp_add_one_toNat h hroom]
      exact hroom
    have hstk := wf_setStk h (memory_write_wf h.canonical s.sp.toNat (s.gpr reg.toNat))
      (memory_write_bound h.cells hroom _)
    exact wf_advance (wf_setSp hstk hsp)
  | pop reg =>
    obtain ⟨-, h0⟩ := instrFault_pop_eq_none.1 hok
    exact wf_advance (wf_xwrite_gprIndex (wf_setSp h (sp_sub_one_le h h0)) _ _)
  | jump target => exact wf_setIp h _
  | outputRegister index => exact wf_advance (wf_emit h _ _)
  | halt => exact wf_setStatus h _

/-- Settles O33: each outcome of a step keeps the invariant. -/
theorem stepKeepsWellFormedness : Obligations.StepKeepsWellFormedness := by
  intro s t h hstep
  cases step_outcome hstep with
  | absorbs => exact h
  | faultsUncounted _ r => exact wf_setStatus h _
  | faultsCounted _ hceil r => exact wf_setStatus (wf_countStep h hceil) _
  | completes _ hceil i _ hok => exact wf_effect (wf_countStep h hceil) hok

end Sys2Proof.Machine
end

section
/-! What an instruction that completes does to each part of the state, and the obligations about one step that follow:
reserved slots, output, IP. -/

namespace Sys2Proof.Machine

open Sys2Proof

/-! ### Reserved slots (R24) -/

/-- A reserved slot is neither IP nor SP nor a GPR, so no instruction writes it. -/
theorem effect_xread_slot {s : State} {k : Nat} (hk : 2 ≤ k) (hlt : k < s.cfg.nReserved) (i : Instr) :
    (effect i s).xread k = s.xread k := by
  have h0 : k ≠ ipIndex := by simp only [ipIndex]; omega
  have h1 : k ≠ spIndex := by simp only [spIndex]; omega
  cases i with
  | moveRegister src dst => exact (advance_xread h0).trans (xwrite_gprIndex_xread_of_lt hlt _ _)
  | moveImmediate value dst => exact (advance_xread h0).trans (xwrite_gprIndex_xread_of_lt hlt _ _)
  | push reg => exact (advance_xread h0).trans (setSp_xread h1 _)
  | pop reg =>
    calc (effect (.pop reg) s).xread k
      _ = ((s.setSp (s.sp - 1)).xwrite (gprIndex s.cfg reg.toNat) (s.stk.read (s.sp.toNat - 1))).xread k :=
        advance_xread h0
      _ = (s.setSp (s.sp - 1)).xread k := xwrite_gprIndex_xread_of_lt (s := s.setSp (s.sp - 1)) hlt _ _
      _ = s.xread k := setSp_xread h1 _
  | jump target => exact setIp_xread h0 _
  | outputRegister index => exact advance_xread h0
  | halt => rfl

/-- A preset that is carried out writes the one GPR (R155). -/
theorem presetGpr_some {j v : Word} {s t : State} (h : presetGpr j v s = some t) :
    presetAllowed j s = true ∧ t = s.xwrite (gprIndex s.cfg j.toNat) v := by
  obtain ⟨hallowed, ht⟩ : presetAllowed j s = true ∧ s.xwrite (gprIndex s.cfg j.toNat) v = t := by
    simpa only [presetGpr, Option.ite_none_right_eq_some, Option.some.injEq] using h
  exact ⟨hallowed, ht.symm⟩

/-- Settles O37: faults change no register, an instruction and a preset change no slot. -/
theorem reservedSlotsNeverChange : Obligations.ReservedSlotsNeverChange := by
  refine fun s t k hk hlt => ⟨fun hstep => ?_, fun j v hpreset => ?_⟩
  · cases step_outcome hstep with
    | absorbs => rfl
    | faultsUncounted => rfl
    | faultsCounted => rfl
    | completes _ _ i => exact effect_xread_slot (s := s.countStep) hk hlt i
  · obtain ⟨-, rfl⟩ := presetGpr_some hpreset
    exact xwrite_gprIndex_xread_of_lt hlt _ _

/-! ### Output (R35) -/

theorem effect_out (i : Instr) (s : State) :
    (effect i s).out = s.out ∨ ∃ index, i = .outputRegister index ∧
      (effect i s).out = s.out ++ [{ index := index, value := s.gpr index.toNat }] := by
  cases i with
  | moveRegister src dst => exact .inl rfl
  | moveImmediate value dst => exact .inl rfl
  | push reg => exact .inl rfl
  | pop reg => exact .inl rfl
  | jump target => exact .inl rfl
  | outputRegister index => exact .inr ⟨index, rfl, rfl⟩
  | halt => exact .inl rfl

/-- Settles O41: only an instruction that completes can emit, and its index has passed the table of R171. -/
theorem outputGrowsOnlyByOutputRegister : Obligations.OutputGrowsOnlyByOutputRegister := by
  intro s t hstep
  cases step_outcome hstep with
  | absorbs => exact .inl rfl
  | faultsUncounted => exact .inl rfl
  | faultsCounted => exact .inl rfl
  | completes _ _ i hfetch hok =>
    rcases effect_out i s.countStep with hout | ⟨index, rfl, hout⟩
    · exact .inl hout
    · exact .inr ⟨index, hfetch, instrFault_outputRegister_eq_none.1 hok, hout⟩

/-! ### Status and IP (R25) -/

theorem effect_status_of_ne_halt {i : Instr} (hi : i ≠ .halt) (s : State) : (effect i s).status = s.status := by
  cases i with
  | moveRegister src dst => rfl
  | moveImmediate value dst => rfl
  | push reg => rfl
  | pop reg => rfl
  | jump target => rfl
  | outputRegister index => rfl
  | halt => exact absurd rfl hi

/-- The five instructions that are neither `Jump` nor `Halt` end by advancing IP from its old value. -/
theorem effect_ip_of_advances {i : Instr} {s : State} (h : WellFormedState s) (hjump : ∀ target, i ≠ .jump target)
    (hhalt : i ≠ .halt) : (effect i s).ip = s.ip + 1 := by
  have hx := x_length_pos h
  cases i with
  | moveRegister src dst =>
    rw [effect, advance_ip (by simpa using hx), xwrite_gprIndex_ip h]
  | moveImmediate value dst =>
    rw [effect, advance_ip (by simpa using hx), xwrite_gprIndex_ip h]
  | push reg =>
    rw [effect, advance_ip (by simpa using hx), setSp_ip, setStk_ip]
  | pop reg =>
    have hgpr : ipIndex ≠ gprIndex s.cfg reg.toNat := (gprIndex_ne_ip h _).symm
    rw [effect, advance_ip (by simpa using hx), State.ip, xread_xwrite_ne hgpr, ← State.ip, setSp_ip]
  | jump target => exact absurd rfl (hjump target)
  | outputRegister index => exact advance_ip hx
  | halt => exact absurd rfl hhalt

/-- Settles O39: a step that stays Running completed an instruction other than `Halt`, and IP, inside the program, is
below the largest word; `Halt` and the faults leave IP. -/
theorem ipAdvancesByOneOrJumps : Obligations.IpAdvancesByOneOrJumps := by
  intro s t h hrun hstep
  cases step_outcome hstep with
  | absorbs hterm => exact absurd hterm (by simp [hrun, Status.terminal])
  | faultsUncounted => exact ⟨fun hrunning => by simp at hrunning, fun _ => rfl⟩
  | faultsCounted => exact ⟨fun hrunning => by simp at hrunning, fun _ => rfl⟩
  | completes _ hceil i hfetch hok =>
    have hc := wf_countStep h hceil
    refine ⟨fun hrunning => ?_, fun hterm => ?_⟩
    · have hhalt : i ≠ .halt := by
        rintro rfl
        simp [effect] at hrunning
      by_cases hjump : ∃ target, i = .jump target
      · obtain ⟨target, rfl⟩ := hjump
        exact .inl ⟨target, hfetch, setIp_ip (x_length_pos hc) target⟩
      · have hadv : ∀ target, i ≠ .jump target := fun target he => hjump ⟨target, he⟩
        refine .inr ⟨fun target he => hadv target (Option.some.inj (hfetch.symm.trans he)), ?_⟩
        rw [effect_ip_of_advances hc hadv hhalt, countStep_ip, toNat_add_one (fetch_some hfetch) h.prog]
    · have hhalt : i = .halt := by
        by_contra hne
        rw [effect_status_of_ne_halt hne, countStep_status, hrun] at hterm
        cases hterm
      subst hhalt
      rfl

end Sys2Proof.Machine
end

section
/-! What the host can do in one transaction (R150), said once, and the ways out of a terminal status. -/

namespace Sys2Proof.Machine

open Sys2Proof

/-- A transaction either leaves the state, replaces it by a reset state, takes a step, or writes a GPR. -/
theorem transact_next {tr : Transaction} {s t : State} {r : Reply} (h : transact tr s = .next (t, r)) :
    t = s ∨
    (t = State.initial s.cfg t.prog ∧ (tr = .reset ∨ (∃ bytes, tr = .load bytes) ∨ ∃ p, tr = .loadDirect p)) ∨
    (tr = .step ∧ step s = .next t) ∨
    (∃ j v, tr = .presetGpr j v ∧ presetGpr j v s = some t) := by
  cases tr with
  | load bytes =>
    obtain ⟨rfl, -⟩ : (load bytes s).1 = t ∧ _ := by simpa [transact] using h
    cases hd : decode bytes with
    | ok p => exact .inr (.inl ⟨by simp [load, hd, State.initial], .inr (.inl ⟨bytes, rfl⟩)⟩)
    | error e => exact .inl (by simp [load, hd])
  | loadDirect p =>
    by_cases hp : p.WellFormed
    · obtain ⟨rfl, -⟩ : State.initial s.cfg p = t ∧ _ := by simpa [transact, loadDirect, hp] using h
      exact .inr (.inl ⟨rfl, .inr (.inr ⟨p, rfl⟩)⟩)
    · obtain ⟨rfl, -⟩ : s = t ∧ _ := by simpa [transact, loadDirect, hp] using h
      exact .inl rfl
  | reset =>
    obtain ⟨rfl, -⟩ : hostReset s = t ∧ _ := by simpa [transact] using h
    exact .inr (.inl ⟨rfl, .inl rfl⟩)
  | step =>
    cases hs : step s with
    | next u =>
      obtain ⟨rfl, -⟩ : u = t ∧ _ := by simpa [transact, hs] using h
      exact .inr (.inr (.inl ⟨rfl, rfl⟩))
    | fault f => simp [transact, hs] at h
    | refused q => simp [transact, hs] at h
  | presetGpr j v =>
    cases hp : presetGpr j v s with
    | some u =>
      obtain ⟨rfl, -⟩ : u = t ∧ _ := by simpa [transact, hp] using h
      exact .inr (.inr (.inr ⟨j, v, rfl, hp⟩))
    | none =>
      obtain ⟨rfl, -⟩ : s = t ∧ _ := by simpa [transact, hp] using h
      exact .inl rfl
  | readGpr j =>
    cases hv : hostReadGpr j s with
    | some v =>
      obtain ⟨rfl, -⟩ : s = t ∧ _ := by simpa [transact, hv] using h
      exact .inl rfl
    | none =>
      obtain ⟨rfl, -⟩ : s = t ∧ _ := by simpa [transact, hv] using h
      exact .inl rfl
  | readControl c =>
    obtain ⟨rfl, -⟩ : s = t ∧ _ := by simpa [transact] using h
    exact .inl rfl
  | readStatus =>
    obtain ⟨rfl, -⟩ : s = t ∧ _ := by simpa [transact] using h
    exact .inl rfl

/-- Settles O27: a terminal state absorbs a step and a GPR write keeps the status, so only a reset state is left. -/
theorem terminalStatusLeftOnlyByReset : Obligations.TerminalStatusLeftOnlyByReset := by
  intro tr s t r hterm htr hne
  rcases transact_next htr with rfl | ⟨ht, htr⟩ | ⟨-, hstep⟩ | ⟨j, v, -, hpreset⟩
  · exact absurd rfl hne
  · exact ⟨congrArg State.status ht, ht, htr⟩
  · rw [step_of_terminal hterm, Host.Outcome.next.injEq] at hstep
    exact absurd (congrArg State.status hstep.symm) hne
  · obtain ⟨-, rfl⟩ := presetGpr_some hpreset
    exact absurd rfl hne

end Sys2Proof.Machine
end

section
/-! The GPRs and SP after each update, and what a completing instruction does to the operand stack. -/

namespace Sys2Proof.Machine

open Sys2Proof

section Registers

variable {s : State}

theorem setIp_gpr (h : WellFormedState s) (v : Word) (j : Nat) : (s.setIp v).gpr j = s.gpr j :=
  setIp_xread (gprIndex_ne_ip h j) v

theorem advance_gpr (h : WellFormedState s) (j : Nat) : s.advance.gpr j = s.gpr j := setIp_gpr h _ j

theorem setSp_gpr (h : WellFormedState s) (v : Word) (j : Nat) : (s.setSp v).gpr j = s.gpr j :=
  setSp_xread (gprIndex_ne_sp h j) v

/-- R40: the GPR written reads the value, every other GPR its own. -/
theorem xwrite_gprIndex_gpr (h : WellFormedState s) {j : Nat} (hj : j < s.cfg.nGpr) (v : Word) (k : Nat) :
    (s.xwrite (gprIndex s.cfg j) v).gpr k = if k = j then v else s.gpr k := by
  by_cases hk : k = j
  · rw [if_pos hk, hk]
    exact xread_xwrite_same (gprIndex_lt h hj) v
  · rw [if_neg hk]
    exact xread_xwrite_ne (fun he => hk (Nat.add_left_cancel he)) v

end Registers

/-! ### `Push` and `Pop` (R27, R41, R42) -/

section PushPop

variable {s : State} {reg : Word}

theorem push_sp_toNat (h : WellFormedState s) (hok : instrFault (.push reg) s = none) :
    (effect (.push reg) s).sp.toNat = s.sp.toNat + 1 := by
  obtain ⟨-, hne⟩ := instrFault_push_eq_none.1 hok
  rw [effect, advance_sp, setStk_setSp_sp h, sp_add_one_toNat h (Nat.lt_of_le_of_ne h.sp hne)]

theorem push_read (h : WellFormedState s) (k : Nat) :
    (effect (.push reg) s).stk.read k = if k = s.sp.toNat then s.gpr reg.toNat else s.stk.read k :=
  memory_read_write h.canonical _ _ _

/-- The write of the popped register does not reach SP. -/
theorem pop_sp (h : WellFormedState s) : (effect (.pop reg) s).sp = s.sp - 1 := by
  have hgpr : spIndex ≠ gprIndex s.cfg reg.toNat := (gprIndex_ne_sp h _).symm
  rw [effect, advance_sp, State.sp, xread_xwrite_ne hgpr, ← State.sp, setSp_sp (two_le_x_length h)]

theorem pop_sp_toNat (h : WellFormedState s) (hok : instrFault (.pop reg) s = none) :
    (effect (.pop reg) s).sp.toNat + 1 = s.sp.toNat := by
  obtain ⟨-, h0⟩ := instrFault_pop_eq_none.1 hok
  rw [pop_sp h, sp_sub_one h0]
  omega

/-- The popped register takes the cell at the new SP. -/
theorem pop_gpr (h : WellFormedState s) (hok : instrFault (.pop reg) s = none) :
    (effect (.pop reg) s).gpr reg.toNat = s.stk.read (effect (.pop reg) s).sp.toNat := by
  obtain ⟨hr, h0⟩ := instrFault_pop_eq_none.1 hok
  have hpopped := wf_setSp h (sp_sub_one_le h h0)
  rw [pop_sp h, sp_sub_one h0, effect]
  exact (advance_gpr (wf_xwrite_gprIndex hpopped _ _) _).trans
    ((xwrite_gprIndex_gpr hpopped hr _ _).trans (if_pos rfl))

end PushPop

/-- An instruction leaves SP, the cells and the outstanding values alone, or it is a `Push` or a `Pop`. -/
theorem effect_stack_cases {s : State} (h : WellFormedState s) (i : Instr) :
    ((effect i s).sp = s.sp ∧ (effect i s).stk = s.stk ∧ ∀ vals, pushedAfter i s vals = vals) ∨
    (∃ reg, i = .push reg) ∨ ∃ reg, i = .pop reg := by
  cases i with
  | moveRegister src dst => exact .inl ⟨(advance_sp _).trans (xwrite_gprIndex_sp h _ _), rfl, fun _ => rfl⟩
  | moveImmediate value dst => exact .inl ⟨(advance_sp _).trans (xwrite_gprIndex_sp h _ _), rfl, fun _ => rfl⟩
  | push reg => exact .inr (.inl ⟨reg, rfl⟩)
  | pop reg => exact .inr (.inr ⟨reg, rfl⟩)
  | jump target => exact .inl ⟨setIp_sp s target, rfl, fun _ => rfl⟩
  | outputRegister index => exact .inl ⟨advance_sp _, rfl, fun _ => rfl⟩
  | halt => exact .inl ⟨rfl, rfl, fun _ => rfl⟩

/-! ### The live stack as a list (R43) -/

@[simp] theorem length_liveStack (s : State) : (liveStack s).length = s.sp.toNat := by simp [liveStack]

theorem liveStack_congr {s t : State} (hsp : t.sp = s.sp) (hread : ∀ k < s.sp.toNat, t.stk.read k = s.stk.read k) :
    liveStack t = liveStack s := by
  rw [liveStack, liveStack, hsp]
  exact List.map_congr_left fun k hk => hread k (List.mem_range.1 hk)

/-- One live cell more on top of the same cells. -/
theorem liveStack_of_sp_succ {s t : State} (hsp : t.sp.toNat = s.sp.toNat + 1)
    (hread : ∀ k < s.sp.toNat, t.stk.read k = s.stk.read k) :
    liveStack t = liveStack s ++ [t.stk.read s.sp.toNat] := by
  rw [liveStack, hsp, List.range_succ, List.map_append, List.map_singleton, liveStack]
  congr 1
  exact List.map_congr_left fun k hk => hread k (List.mem_range.1 hk)

theorem liveStack_push {s : State} {reg : Word} (h : WellFormedState s) (hok : instrFault (.push reg) s = none) :
    liveStack (effect (.push reg) s) = liveStack s ++ [s.gpr reg.toNat] := by
  have hsplit := liveStack_of_sp_succ (push_sp_toNat h hok) fun k hk => by
    rw [push_read h, if_neg (Nat.ne_of_lt hk)]
  rwa [push_read h, if_pos rfl] at hsplit

theorem liveStack_pop {s : State} {reg : Word} (h : WellFormedState s) (hok : instrFault (.pop reg) s = none) :
    liveStack s = liveStack (effect (.pop reg) s) ++ [(effect (.pop reg) s).gpr reg.toNat] := by
  rw [pop_gpr h hok]
  exact liveStack_of_sp_succ (pop_sp_toNat h hok).symm fun _ _ => rfl

/-- The live cells are the abstract stack: an instruction acts on them as `pushedAfter` reckons, which sees no cell. -/
theorem liveStack_effect {i : Instr} {s : State} (h : WellFormedState s) (hok : instrFault i s = none) :
    liveStack (effect i s) = pushedAfter i s (liveStack s) := by
  rcases effect_stack_cases h i with ⟨hsp, hstk, hsame⟩ | ⟨reg, rfl⟩ | ⟨reg, rfl⟩
  · rw [hsame, liveStack_congr hsp fun k _ => by rw [hstk]]
  · exact liveStack_push h hok
  · rw [pushedAfter, liveStack_pop h hok, List.dropLast_concat]

/-- Settles O42: the three cases are those of `effect_stack_cases`. -/
theorem liveStackIsLastInFirstOut : Obligations.LiveStackIsLastInFirstOut := by
  intro s t h hstep
  cases step_outcome hstep with
  | absorbs => exact .inl rfl
  | faultsUncounted => exact .inl rfl
  | faultsCounted => exact .inl rfl
  | completes _ hceil i hfetch hok =>
    have hc := wf_countStep h hceil
    rcases effect_stack_cases hc i with ⟨hsp, hstk, -⟩ | ⟨reg, rfl⟩ | ⟨reg, rfl⟩
    · exact .inl (liveStack_congr hsp fun k _ => by rw [hstk, countStep_stk])
    · exact .inr (.inl ⟨reg, hfetch, liveStack_push hc hok⟩)
    · exact .inr (.inr ⟨reg, hfetch, liveStack_pop (s := s.countStep) hc hok⟩)

end Sys2Proof.Machine
end

section
/-! Runs: one step peeled off the front, and the values outstanding after a run as an invariant carried along it. -/

namespace Sys2Proof.Machine

open Sys2Proof

theorem run_succ_of_step {s u : State} (h : step s = .next u) (k : Nat) : core.run (k + 1) s = core.run k u := by
  have hcore : core.step s = .next u := h
  simp only [Host.Core.run, hcore]

theorem run_succ_next {s t : State} {k : Nat} (h : core.run (k + 1) s = .next t) :
    ∃ u, step s = .next u ∧ core.run k u = .next t := by
  cases hs : core.step s with
  | next u => exact ⟨u, hs, by simpa only [Host.Core.run, hs] using h⟩
  | fault f => simp [Host.Core.run, hs] at h
  | refused r => simp [Host.Core.run, hs] at h

/-- The values outstanding after the step from `s` to `t`, `vals` being those before. -/
def outstandingAfter (s t : State) (vals : List Word) : List Word :=
  (executed s t).elim vals fun i => pushedAfter i s vals

theorem outstanding_succ {s u : State} (h : step s = .next u) (k : Nat) (vals : List Word) :
    outstanding (k + 1) s vals = outstanding k u (outstandingAfter s u vals) := by
  simp only [outstanding, h, outstandingAfter]
  cases executed s u with
  | none => rfl
  | some i => rfl

/-- The one induction over runs: a relation between a state and the values outstanding that every step keeps. -/
theorem outstanding_invariant {R : State → List Word → Prop}
    (hkeeps : ∀ s u vals, WellFormedState s → step s = .next u → R s vals → R u (outstandingAfter s u vals))
    (k : Nat) {s t : State} {vals : List Word} (h : WellFormedState s) (hR : R s vals)
    (hrun : core.run k s = .next t) : R t (outstanding k s vals) := by
  induction k generalizing s vals with
  | zero =>
    obtain rfl : s = t := Host.Outcome.next.inj hrun
    exact hR
  | succ k ih =>
    obtain ⟨u, hstep, hrest⟩ := run_succ_next hrun
    rw [outstanding_succ hstep]
    exact ih (stepKeepsWellFormedness s u h hstep) (hkeeps s u vals h hstep hR) hrest

/-- A step that absorbs or faults executes nothing. -/
theorem executed_self_of_terminal {s : State} (h : s.status.terminal = true) : executed s s = none := by
  cases hs : s.status with
  | running => simp [hs, Status.terminal] at h
  | halted => simp [executed, hs, Status.terminal]
  | faulted r => simp [executed, hs]

/-- A fetched instruction that completes is the one executed, `Halt` included. -/
theorem executed_effect {s : State} {i : Instr} (hrun : s.status = .running) (hfetch : s.fetch = some i) :
    executed s (effect i s.countStep) = some i := by
  by_cases hhalt : i = .halt
  · subst hhalt
    simp [executed, effect, hrun, Status.terminal, hfetch]
  · simp [executed, effect_status_of_ne_halt hhalt, hrun, hfetch]

/-- One step moves the live stack as it moves the outstanding values. -/
theorem liveStack_step {s t : State} (h : WellFormedState s) (hstep : step s = .next t) :
    liveStack t = outstandingAfter s t (liveStack s) := by
  cases step_outcome hstep with
  | absorbs hterm => rw [outstandingAfter, executed_self_of_terminal hterm, Option.elim_none]
  | faultsUncounted => rfl
  | faultsCounted => rfl
  | completes hrun hceil i hfetch hok =>
    rw [outstandingAfter, executed_effect hrun hfetch, Option.elim_some]
    exact liveStack_effect (wf_countStep h hceil) hok

/-- Settles O43: the live cells are the outstanding values, as an invariant of the run; from reset SP is 0. -/
theorem liveCellsHoldOutstandingPushes : Obligations.LiveCellsHoldOutstandingPushes := by
  refine ⟨fun s t k h hrun => ?_, fun cfg p => ?_⟩
  · refine outstanding_invariant (R := fun u vals => liveStack u = vals) (fun s u vals hs hstep hR => ?_) k h rfl hrun
    rw [liveStack_step hs hstep, hR]
  · rw [liveStack, initial_sp]
    rfl

/-- How many values are outstanding after an instruction depends only on how many there were. -/
theorem length_outstandingAfter_congr {s t : State} {vals vals' : List Word} (h : vals.length = vals'.length) :
    (outstandingAfter s t vals).length = (outstandingAfter s t vals').length := by
  cases hi : executed s t with
  | none => simpa [outstandingAfter, hi] using h
  | some i => cases i <;> simp [outstandingAfter, hi, pushedAfter, h]

/-- Settles O38: the one-step part by `effect_stack_cases`; for the count, the length of the live stack is SP. -/
theorem spChangesOnlyByPushAndPop : Obligations.SpChangesOnlyByPushAndPop := by
  refine ⟨fun s t h hstep => ⟨(stepKeepsWellFormedness s t h hstep).sp, ?_⟩, fun s t vals k h hlen hrun => ?_⟩
  · cases step_outcome hstep with
    | absorbs => exact .inl rfl
    | faultsUncounted => exact .inl rfl
    | faultsCounted => exact .inl rfl
    | completes _ hceil i hfetch hok =>
      have hc := wf_countStep h hceil
      rcases effect_stack_cases hc i with ⟨hsp, -, -⟩ | ⟨reg, rfl⟩ | ⟨reg, rfl⟩
      · exact .inl hsp
      · exact .inr (.inl ⟨reg, hfetch, push_sp_toNat hc hok, (push_read hc _).trans (if_pos rfl)⟩)
      · exact .inr (.inr ⟨reg, hfetch, pop_sp_toNat hc hok, pop_gpr hc hok⟩)
  · refine outstanding_invariant (R := fun u vals => vals.length = u.sp.toNat) (fun s u vals hs hstep hR => ?_)
      k h hlen hrun
    rw [length_outstandingAfter_congr (hR.trans (length_liveStack s).symm), ← liveStack_step hs hstep,
      length_liveStack]

end Sys2Proof.Machine
end

section
/-! Noninterference of the dead state (R24, R29, R45): two well-formed states that agree on everything observable are
kept in agreement by each operation of the machine, so by each instruction, each step and each run. -/

namespace Sys2Proof.Machine

open Sys2Proof

/-- Two well-formed states that agree on everything observable: the relation that runs in lockstep keep. -/
structure Indistinguishable (s t : State) : Prop where
  left : WellFormedState s
  right : WellFormedState t
  same : SameObservable s t

namespace Indistinguishable

variable {s t : State}

theorem cfg (h : Indistinguishable s t) : t.cfg = s.cfg := h.same.control.cfg

theorem status (h : Indistinguishable s t) : t.status = s.status := h.same.control.status

theorem ip (h : Indistinguishable s t) : t.ip = s.ip := h.same.control.ip

theorem sp (h : Indistinguishable s t) : t.sp = s.sp := h.same.control.sp

theorem fetch (h : Indistinguishable s t) : t.fetch = s.fetch := by
  rw [State.fetch, State.fetch, h.same.control.prog, h.ip]

theorem ceilingReached (h : Indistinguishable s t) : t.ceilingReached = s.ceilingReached := by
  rw [State.ceilingReached, State.ceilingReached, h.cfg, h.same.control.steps]

/-- The table of R171 looks only at the parameters and SP. -/
theorem instrFault (h : Indistinguishable s t) (i : Instr) : instrFault i t = instrFault i s := by
  cases i with
  | moveRegister src dst => simp only [Machine.instrFault, h.cfg]
  | moveImmediate value dst => simp only [Machine.instrFault, h.cfg]
  | push reg => simp only [Machine.instrFault, h.cfg, h.sp]
  | pop reg => simp only [Machine.instrFault, h.cfg, h.sp]
  | jump target => rfl
  | outputRegister index => simp only [Machine.instrFault, h.cfg]
  | halt => rfl

/-! ### Each operation -/

theorem setStatus (h : Indistinguishable s t) (st : Status) :
    Indistinguishable (s.setStatus st) (t.setStatus st) := by
  obtain ⟨hs, ht, ⟨hcfg, hprog, -, hsteps, hip, hsp⟩, hout, hgprs, hlive⟩ := h
  exact ⟨wf_setStatus hs st, wf_setStatus ht st, ⟨hcfg, hprog, rfl, hsteps, hip, hsp⟩, hout, hgprs, hlive⟩

theorem countStep (h : Indistinguishable s t) (hceil : s.ceilingReached = false) :
    Indistinguishable s.countStep t.countStep := by
  have hceil' : t.ceilingReached = false := h.ceilingReached.trans hceil
  obtain ⟨hs, ht, ⟨hcfg, hprog, hstatus, hsteps, hip, hsp⟩, hout, hgprs, hlive⟩ := h
  exact ⟨wf_countStep hs hceil, wf_countStep ht hceil',
    ⟨hcfg, hprog, hstatus, congrArg (· + 1) hsteps, hip, hsp⟩, hout, hgprs, hlive⟩

theorem emit (h : Indistinguishable s t) (i : Half) (v : Word) : Indistinguishable (s.emit i v) (t.emit i v) := by
  obtain ⟨hs, ht, ⟨hcfg, hprog, hstatus, hsteps, hip, hsp⟩, hout, hgprs, hlive⟩ := h
  exact ⟨wf_emit hs i v, wf_emit ht i v, ⟨hcfg, hprog, hstatus, hsteps, hip, hsp⟩, congrArg (· ++ _) hout, hgprs,
    hlive⟩

theorem setIp (h : Indistinguishable s t) (v : Word) : Indistinguishable (s.setIp v) (t.setIp v) := by
  obtain ⟨hs, ht, ⟨hcfg, hprog, hstatus, hsteps, -, hsp⟩, hout, hgprs, hlive⟩ := h
  have hip : (t.setIp v).ip = (s.setIp v).ip := by
    rw [setIp_ip (x_length_pos ht), setIp_ip (x_length_pos hs)]
  refine ⟨wf_setIp hs v, wf_setIp ht v, ⟨hcfg, hprog, hstatus, hsteps, hip, by simpa using hsp⟩, hout,
    fun j hj => ?_, fun k hk => hlive k (by simpa using hk)⟩
  rw [setIp_gpr ht, setIp_gpr hs, hgprs j hj]

theorem advance (h : Indistinguishable s t) : Indistinguishable s.advance t.advance := by
  rw [advance_eq, advance_eq, h.ip]
  exact h.setIp _

theorem xwrite_gprIndex (h : Indistinguishable s t) {j : Nat} (hj : j < s.cfg.nGpr) (v : Word) :
    Indistinguishable (s.xwrite (gprIndex s.cfg j) v) (t.xwrite (gprIndex t.cfg j) v) := by
  have hj' : j < t.cfg.nGpr := h.cfg ▸ hj
  obtain ⟨hs, ht, ⟨hcfg, hprog, hstatus, hsteps, hip, hsp⟩, hout, hgprs, hlive⟩ := h
  refine ⟨wf_xwrite_gprIndex hs j v, wf_xwrite_gprIndex ht j v, ⟨hcfg, hprog, hstatus, hsteps, ?_, ?_⟩, hout,
    fun k hk => ?_, fun k hk => hlive k (xwrite_gprIndex_sp hs j v ▸ hk)⟩
  · rw [xwrite_gprIndex_ip ht, xwrite_gprIndex_ip hs, hip]
  · rw [xwrite_gprIndex_sp ht, xwrite_gprIndex_sp hs, hsp]
  · rw [xwrite_gprIndex_gpr ht hj', xwrite_gprIndex_gpr hs hj, hgprs k hk]

theorem setStk (h : Indistinguishable s t) {m m' : Memory} (hm : WellFormedState (s.setStk m))
    (hm' : WellFormedState (t.setStk m')) (hread : ∀ k < s.sp.toNat, m'.read k = m.read k) :
    Indistinguishable (s.setStk m) (t.setStk m') := by
  obtain ⟨-, -, ⟨hcfg, hprog, hstatus, hsteps, hip, hsp⟩, hout, hgprs, -⟩ := h
  exact ⟨hm, hm', ⟨hcfg, hprog, hstatus, hsteps, hip, hsp⟩, hout, hgprs, hread⟩

/-- SP decides which cells are live: the states must agree on those below its new value. -/
theorem setSp (h : Indistinguishable s t) {v : Word} (hv : v.toNat ≤ s.cfg.stackCap)
    (hread : ∀ k < v.toNat, t.stk.read k = s.stk.read k) : Indistinguishable (s.setSp v) (t.setSp v) := by
  have hv' : v.toNat ≤ t.cfg.stackCap := h.cfg ▸ hv
  obtain ⟨hs, ht, ⟨hcfg, hprog, hstatus, hsteps, hip, -⟩, hout, hgprs, -⟩ := h
  have hsp := setSp_sp (two_le_x_length hs) v
  refine ⟨wf_setSp hs hv, wf_setSp ht hv', ⟨hcfg, hprog, hstatus, hsteps, by simpa using hip, ?_⟩, hout,
    fun j hj => ?_, fun k hk => hread k (hsp ▸ hk)⟩
  · rw [hsp, setSp_sp (two_le_x_length ht)]
  · rw [setSp_gpr ht, setSp_gpr hs, hgprs j hj]

/-- A pushed value is the same in both states, and the cells below it were live already. -/
theorem push (h : Indistinguishable s t) (hroom : s.sp.toNat < s.cfg.stackCap) (v : Word) :
    Indistinguishable ((s.setStk (s.stk.write s.sp.toNat v)).setSp (s.sp + 1))
      ((t.setStk (t.stk.write s.sp.toNat v)).setSp (s.sp + 1)) := by
  have hroom' : s.sp.toNat < t.cfg.stackCap := h.cfg ▸ hroom
  have hsp := sp_add_one_toNat h.left hroom
  have hread : ∀ k < s.sp.toNat + 1, (t.stk.write s.sp.toNat v).read k = (s.stk.write s.sp.toNat v).read k := by
    intro k hk
    rw [memory_read_write h.right.canonical, memory_read_write h.left.canonical]
    split
    · rfl
    · exact h.same.live k (by omega)
  have hwritten := h.setStk
    (wf_setStk h.left (memory_write_wf h.left.canonical _ _) (memory_write_bound h.left.cells hroom _))
    (wf_setStk h.right (memory_write_wf h.right.canonical _ _) (memory_write_bound h.right.cells hroom' _))
    fun k hk => hread k (Nat.lt_succ_of_lt hk)
  exact hwritten.setSp (by rw [hsp]; exact hroom) fun k hk => hread k (hsp ▸ hk)

/-! ### Instructions, steps, runs -/

/-- Every operand of a completing instruction is a good GPR or a live cell, so both states hold it. -/
theorem effect (h : Indistinguishable s t) {i : Instr} (hok : Machine.instrFault i s = none) :
    Indistinguishable (effect i s) (effect i t) := by
  cases i with
  | moveRegister src dst =>
    obtain ⟨hsrc, hdst⟩ := instrFault_moveRegister_eq_none.1 hok
    simp only [Machine.effect, h.same.gprs _ hsrc]
    exact (h.xwrite_gprIndex hdst _).advance
  | moveImmediate value dst =>
    exact (h.xwrite_gprIndex (instrFault_moveImmediate_eq_none.1 hok) _).advance
  | push reg =>
    obtain ⟨hreg, hne⟩ := instrFault_push_eq_none.1 hok
    simp only [Machine.effect, h.same.gprs _ hreg, h.sp]
    exact (h.push (Nat.lt_of_le_of_ne h.left.sp hne) _).advance
  | pop reg =>
    obtain ⟨hreg, h0⟩ := instrFault_pop_eq_none.1 hok
    have htop : s.sp.toNat - 1 < s.sp.toNat := Nat.pred_lt h0
    have hpopped := h.setSp (sp_sub_one_le h.left h0) fun k hk => h.same.live k (Nat.lt_trans (sp_sub_one h0 ▸ hk) htop)
    simp only [Machine.effect, h.sp, h.same.live _ htop]
    exact (hpopped.xwrite_gprIndex hreg _).advance
  | jump target => exact h.setIp target
  | outputRegister index =>
    simp only [Machine.effect, h.same.gprs _ (instrFault_outputRegister_eq_none.1 hok)]
    exact (h.emit index _).advance
  | halt => exact h.setStatus .halted

theorem exec (h : Indistinguishable s t) (i : Instr) :
    ∃ s' t', exec i s = .next s' ∧ exec i t = .next t' ∧ Indistinguishable s' t' := by
  cases hf : Machine.instrFault i s with
  | some r => exact ⟨_, _, exec_of_fault hf, exec_of_fault ((h.instrFault i).trans hf), h.setStatus _⟩
  | none =>
    exact ⟨_, _, exec_of_completes hf h.left.sp, exec_of_completes ((h.instrFault i).trans hf) h.right.sp,
      h.effect hf⟩

/-- The tests of a step (R100) come out alike, and so does what follows them. -/
theorem step (h : Indistinguishable s t) :
    ∃ s' t', step s = .next s' ∧ step t = .next t' ∧ Indistinguishable s' t' := by
  cases hterm : s.status.terminal with
  | true => exact ⟨s, t, step_of_terminal hterm, step_of_terminal (h.status ▸ hterm), h⟩
  | false =>
    have hrun := terminal_eq_false hterm
    have hrun' := h.status.trans hrun
    cases hceil : s.ceilingReached with
    | true =>
      exact ⟨_, _, step_of_ceiling hrun hceil, step_of_ceiling hrun' (h.ceilingReached.trans hceil), h.setStatus _⟩
    | false =>
      have hceil' := h.ceilingReached.trans hceil
      have hcounted := h.countStep hceil
      cases hfetch : s.fetch with
      | none =>
        exact ⟨_, _, step_of_no_fetch hrun hceil hfetch, step_of_no_fetch hrun' hceil' (h.fetch.trans hfetch),
          hcounted.setStatus _⟩
      | some i =>
        rw [step_of_fetch hrun hceil hfetch, step_of_fetch hrun' hceil' (h.fetch.trans hfetch)]
        exact hcounted.exec i

theorem run (h : Indistinguishable s t) (k : Nat) :
    ∃ s' t', core.run k s = .next s' ∧ core.run k t = .next t' ∧ Indistinguishable s' t' := by
  induction k generalizing s t with
  | zero => exact ⟨s, t, rfl, rfl, h⟩
  | succ k ih =>
    obtain ⟨s', t', hs, ht, h'⟩ := h.step
    rw [run_succ_of_step hs, run_succ_of_step ht]
    exact ih h'

end Indistinguishable

/-- Settles O47: runs in lockstep keep `Indistinguishable`. -/
theorem deadStateIsUnobservable : Obligations.DeadStateIsUnobservable := by
  intro s t k hs ht hsame
  obtain ⟨s', t', hrun, hrun', h⟩ := Indistinguishable.run ⟨hs, ht, hsame⟩ k
  exact ⟨s', t', hrun, hrun', h.same⟩

end Sys2Proof.Machine
end

section
/-! The program store (R60): what no instruction changes, and the program along a step, a transaction and a run. -/

namespace Sys2Proof.Machine

open Sys2Proof

theorem effect_sameFixed (i : Instr) (s : State) : SameFixed s (effect i s) := by
  cases i with
  | moveRegister src dst => exact ⟨rfl, rfl, rfl, rfl⟩
  | moveImmediate value dst => exact ⟨rfl, rfl, rfl, rfl⟩
  | push reg => exact ⟨rfl, rfl, rfl, rfl⟩
  | pop reg => exact ⟨rfl, rfl, rfl, rfl⟩
  | jump target => exact ⟨rfl, rfl, rfl, rfl⟩
  | outputRegister index => exact ⟨rfl, rfl, rfl, rfl⟩
  | halt => exact ⟨rfl, rfl, rfl, rfl⟩

/-- No step replaces the program or the parameters, in any state. -/
theorem step_keeps_program {s t : State} (h : step s = .next t) : t.prog = s.prog ∧ t.cfg = s.cfg := by
  cases step_outcome h with
  | absorbs => exact ⟨rfl, rfl⟩
  | faultsUncounted => exact ⟨rfl, rfl⟩
  | faultsCounted => exact ⟨rfl, rfl⟩
  | completes _ _ i =>
    obtain ⟨hcfg, hprog, -, -⟩ := effect_sameFixed i s.countStep
    exact ⟨hprog, hcfg⟩

/-- What every step keeps holds after any run. -/
theorem run_invariant {P : State → Prop} (hkeeps : ∀ s u, step s = .next u → P s → P u) (k : Nat) {s t : State}
    (h : P s) (hrun : core.run k s = .next t) : P t := by
  induction k generalizing s with
  | zero =>
    obtain rfl : s = t := Host.Outcome.next.inj hrun
    exact h
  | succ k ih =>
    obtain ⟨u, hstep, hrest⟩ := run_succ_next hrun
    exact ih (hkeeps s u hstep h) hrest

theorem run_keeps_program {s t : State} {k : Nat} (h : core.run k s = .next t) : t.prog = s.prog :=
  run_invariant (P := fun u => u.prog = s.prog) (fun _ _ hstep hu => (step_keeps_program hstep).1.trans hu) k rfl h

/-- R60, for a transaction: `Reset` keeps the program, so of the resets only the loads replace it. -/
theorem transact_program {tr : Transaction} {s t : State} {r : Reply} (h : transact tr s = .next (t, r)) :
    t.cfg = s.cfg ∧
    (t.prog = s.prog ∨
      (t = State.initial s.cfg t.prog ∧ ((∃ bytes, tr = .load bytes) ∨ ∃ p, tr = .loadDirect p))) := by
  rcases transact_next h with rfl | ⟨ht, rfl | hload⟩ | ⟨-, hstep⟩ | ⟨j, v, -, hpreset⟩
  · exact ⟨rfl, .inl rfl⟩
  · obtain ⟨rfl, -⟩ : hostReset s = t ∧ _ := by simpa [transact] using h
    exact ⟨rfl, .inl rfl⟩
  · exact ⟨(congrArg State.cfg ht :), .inr ⟨ht, hload⟩⟩
  · obtain ⟨hprog, hcfg⟩ := step_keeps_program hstep
    exact ⟨hcfg, .inl hprog⟩
  · obtain ⟨-, rfl⟩ := presetGpr_some hpreset
    exact ⟨rfl, .inl rfl⟩

/-- Settles O40: step by step, transaction by transaction, and along a run from the reset state of `p`. -/
theorem onlyLoadsChangeTheProgram : Obligations.OnlyLoadsChangeTheProgram := by
  refine ⟨fun s t => step_keeps_program, fun tr s t r => transact_program, fun s p k t hrun => ?_⟩
  have hprog : t.prog = p := run_keeps_program hrun
  rw [State.fetch, hprog]

end Sys2Proof.Machine
end

section
/-! The model's own stop (R55, log 3): `Push` and `Pop` where SP is beyond the stack. -/

namespace Sys2Proof.Machine

open Sys2Proof

theorem exec_push_of_beyond {s : State} {reg : Word} (hreg : reg.toNat < s.cfg.nGpr)
    (hbeyond : s.cfg.stackCap < s.sp.toNat) : exec (.push reg) s = .fault .stackCellAbsent := by
  simp only [exec, execPush, readGpr_of_lt hreg, stackPush_of_beyond hbeyond, bind, Except.bind, finish_stuck]

theorem exec_pop_of_beyond {s : State} {reg : Word} (hreg : reg.toNat < s.cfg.nGpr)
    (hbeyond : s.cfg.stackCap < s.sp.toNat) : exec (.pop reg) s = .fault .stackCellAbsent := by
  simp only [exec, execPop, requireGpr_of_lt hreg, stackPop_of_beyond hbeyond, bind, Except.bind, finish_stuck]

/-- Settles O18: the cell at SP, and the one below it, are at or above `STACK_CAP`. -/
theorem stackPointerBeyondCapacityStops : Obligations.StackPointerBeyondCapacityStops :=
  fun _ _ hreg hbeyond => ⟨exec_push_of_beyond hreg hbeyond, exec_pop_of_beyond hreg hbeyond⟩

end Sys2Proof.Machine
end

section
/-! One record: the field, assembly and tag laws, and `decodeRecord` as the inverse of `encodeInstr` (R72 to R82). -/

namespace Sys2Proof

open Laws.RecordShape (leBytes_length)

/-! ### Operand fields -/

theorem ofNat_leValue_leBytes {w n : Nat} (hw : 2 ^ w = 256 ^ n) (v : BitVec w) :
    BitVec.ofNat w (leValue (leBytes n v.toNat)) = v := by
  rw [leValue_leBytes, ← hw, Nat.mod_eq_of_lt v.isLt, BitVec.ofNat_toNat, BitVec.setWidth_eq]

theorem leBytes_ofNat_leValue {w n : Nat} (hw : 2 ^ w = 256 ^ n) {bs : List Byte} (hbs : bs.length = n) :
    leBytes n (BitVec.ofNat w (leValue bs)).toNat = bs := by
  rw [BitVec.toNat_ofNat, hw, ← hbs, Nat.mod_eq_of_lt (leValue_lt bs), leBytes_leValue]

theorem field64_of_bytes {ops : List Byte} {k : Nat} {v : Word} (h : (ops.drop k).take 8 = leBytes 8 v.toNat) :
    field64 ops k = v := by
  rw [field64, h, ofNat_leValue_leBytes (by rfl)]

theorem field16_of_bytes {ops : List Byte} {k : Nat} {v : Half} (h : (ops.drop k).take 2 = leBytes 2 v.toNat) :
    field16 ops k = v := by
  rw [field16, h, ofNat_leValue_leBytes (by rfl)]

theorem leBytes_field64 {ops : List Byte} {k : Nat} (h : k + 8 ≤ ops.length) :
    leBytes 8 (field64 ops k).toNat = (ops.drop k).take 8 :=
  leBytes_ofNat_leValue (by rfl) (by rw [List.length_take, List.length_drop]; omega)

/-! ### Operand bytes and instructions -/

theorem recordShape (i : Instr) : Laws.RecordShape.Statement i := by
  cases i with
  | moveRegister src dst => exact Laws.RecordShape.moveRegister src dst
  | moveImmediate value dst => exact Laws.RecordShape.moveImmediate value dst
  | push reg => exact Laws.RecordShape.push reg
  | pop reg => exact Laws.RecordShape.pop reg
  | jump target => exact Laws.RecordShape.jump target
  | outputRegister index => exact Laws.RecordShape.outputRegister index
  | halt => exact Laws.RecordShape.halt

theorem opcodeOfTag_tagOf (i : Instr) : opcodeOfTag (tagOf (opcodeOf i)) = some (opcodeOf i) := (recordShape i).1

theorem length_encodeInstr (i : Instr) : (encodeInstr i).length = 1 + operandBytes (opcodeOf i) :=
  (recordShape i).2.2.1

theorem length_encodeOperands (i : Instr) : (encodeOperands i).length = operandBytes (opcodeOf i) := by
  have h := length_encodeInstr i
  rw [encodeInstr, List.length_cons] at h
  omega

/-- R77, R82: the decoder makes of a record's operand bytes the instruction they were laid out from. -/
theorem assemble_encodeOperands (i : Instr) : assemble (opcodeOf i) (encodeOperands i) = i := by
  cases i with
  | moveRegister src dst =>
    exact congrArg₂ Instr.moveRegister (field64_of_bytes (by simp [encodeOperands, leBytes_length]))
      (field64_of_bytes (by simp [encodeOperands, leBytes_length]))
  | moveImmediate value dst =>
    exact congrArg₂ Instr.moveImmediate (field64_of_bytes (by simp [encodeOperands, leBytes_length]))
      (field64_of_bytes (by simp [encodeOperands, leBytes_length]))
  | push reg => exact congrArg Instr.push (field64_of_bytes (by simp [encodeOperands, leBytes_length]))
  | pop reg => exact congrArg Instr.pop (field64_of_bytes (by simp [encodeOperands, leBytes_length]))
  | jump target => exact congrArg Instr.jump (field64_of_bytes (by simp [encodeOperands, leBytes_length]))
  | outputRegister index =>
    exact congrArg Instr.outputRegister (field16_of_bytes (by simp [encodeOperands, leBytes_length]))
  | halt => rfl

theorem opcodeOf_assemble (op : Opcode) (ops : List Byte) : opcodeOf (assemble op ops) = op := by
  cases op <;> rfl

theorem leBytes_field64_pair {ops : List Byte} (h : ops.length = 16) :
    leBytes 8 (field64 ops 0).toNat ++ leBytes 8 (field64 ops 8).toNat = ops := by
  rw [leBytes_field64 (by omega), leBytes_field64 (by omega), List.drop_zero,
    List.take_of_length_le (l := ops.drop 8) (by rw [List.length_drop]; omega), List.take_append_drop]

theorem leBytes_field64_whole {ops : List Byte} (h : ops.length = 8) : leBytes 8 (field64 ops 0).toNat = ops := by
  rw [leBytes_field64 (by omega), List.drop_zero, List.take_of_length_le (by omega)]

theorem leBytes_field16_whole {ops : List Byte} (h : ops.length = 2) : leBytes 2 (field16 ops 0).toNat = ops := by
  rw [field16, List.drop_zero, List.take_of_length_le (by omega), leBytes_ofNat_leValue (by rfl) h]

/-- The other direction: no two strings of operand bytes make the same instruction. -/
theorem encodeOperands_assemble {op : Opcode} {ops : List Byte} (h : ops.length = operandBytes op) :
    encodeOperands (assemble op ops) = ops := by
  cases op with
  | moveRegister => exact leBytes_field64_pair h
  | moveImmediate => exact leBytes_field64_pair h
  | push => exact leBytes_field64_whole h
  | pop => exact leBytes_field64_whole h
  | jump => exact leBytes_field64_whole h
  | outputRegister => exact leBytes_field16_whole h
  | halt => exact (List.length_eq_zero_iff.1 h).symm

/-! ### Tags (R76, R78) -/

theorem tagOf_of_opcodeOfTag {tag : Byte} {op : Opcode} (h : opcodeOfTag tag = some op) : tag = tagOf op := by
  unfold opcodeOfTag at h
  split_ifs at h with h0 h1 h2 h3 h4 h5 h6 <;> cases h <;> assumption

theorem tagOf_toNat_le (op : Opcode) : (tagOf op).toNat ≤ 6 := by
  cases op <;> decide

theorem opcodeOfTag_of_six_lt {tag : Byte} (h : 6 < tag.toNat) : opcodeOfTag tag = none := by
  cases hop : opcodeOfTag tag with
  | none => rfl
  | some op =>
    have hle := tagOf_toNat_le op
    rw [← tagOf_of_opcodeOfTag hop] at hle
    omega

/-! ### The record decoder -/

theorem decodeRecord_of_unknown {tag : Byte} (h : opcodeOfTag tag = none) (rest : List Byte) :
    decodeRecord (tag :: rest) = .error .unknownTag := by
  simp only [decodeRecord, h]

theorem decodeRecord_of_short {tag : Byte} {op : Opcode} {rest : List Byte} (h : opcodeOfTag tag = some op)
    (hlen : rest.length < operandBytes op) : decodeRecord (tag :: rest) = .error .truncated := by
  simp only [decodeRecord, h, if_pos hlen]

theorem decodeRecord_of_long {tag : Byte} {op : Opcode} {rest : List Byte} (h : opcodeOfTag tag = some op)
    (hlen : operandBytes op ≤ rest.length) :
    decodeRecord (tag :: rest) = .ok (assemble op (rest.take (operandBytes op)), rest.drop (operandBytes op)) := by
  simp only [decodeRecord, h, if_neg (Nat.not_lt.2 hlen)]

theorem decodeRecord_encodeInstr (i : Instr) (rest : List Byte) :
    decodeRecord (encodeInstr i ++ rest) = .ok (i, rest) := by
  have hlen := length_encodeOperands i
  rw [encodeInstr, List.cons_append, decodeRecord_of_long (opcodeOfTag_tagOf i) (by simp [hlen]), ← hlen,
    List.take_left, List.drop_left, assemble_encodeOperands]

/-- What the record decoder can answer: the instruction whose record the stream starts with, or one of two errors. -/
theorem decodeRecord_cases (bs : List Byte) :
    (∃ i rest, bs = encodeInstr i ++ rest) ∨ decodeRecord bs = .error .truncated ∨
      decodeRecord bs = .error .unknownTag := by
  cases bs with
  | nil => exact .inr (.inl rfl)
  | cons tag rest =>
    cases hop : opcodeOfTag tag with
    | none => exact .inr (.inr (decodeRecord_of_unknown hop rest))
    | some op =>
      rcases Nat.lt_or_ge rest.length (operandBytes op) with hlen | hlen
      · exact .inr (.inl (decodeRecord_of_short hop hlen))
      · refine .inl ⟨assemble op (rest.take (operandBytes op)), rest.drop (operandBytes op), ?_⟩
        rw [encodeInstr, opcodeOf_assemble, encodeOperands_assemble (List.length_take_of_le hlen), List.cons_append,
          List.take_append_drop, ← tagOf_of_opcodeOfTag hop]

/-- R79: a record cut anywhere is `Truncated`, its tag being known. -/
theorem decodeRecord_take_encodeInstr {i : Instr} {k : Nat} (hk : k < (encodeInstr i).length) :
    decodeRecord ((encodeInstr i).take k) = .error .truncated := by
  rw [length_encodeInstr] at hk
  cases k with
  | zero => rfl
  | succ k =>
    refine decodeRecord_of_short (opcodeOfTag_tagOf i) ?_
    rw [List.length_take]
    omega

/-- Settles O2: the record's tag names its variant, and assembling inverts the layout of the operands. -/
theorem encodedRecordDecodesBack : Obligations.EncodedRecordDecodesBack := decodeRecord_encodeInstr

/-- Settles O1: each row is the record `encodeInstr` writes, so it decodes back. -/
theorem opcodeMapRecordsDecode : Obligations.OpcodeMapRecordsDecode :=
  ⟨decodeRecord_encodeInstr (.moveRegister 1 2) [], decodeRecord_encodeInstr (.moveImmediate 0x0123456789ABCDEF 3) [],
    decodeRecord_encodeInstr (.push 5) [], decodeRecord_encodeInstr (.pop 6) [],
    decodeRecord_encodeInstr (.jump 0x100) [], decodeRecord_encodeInstr (.outputRegister 0x1234) [],
    decodeRecord_encodeInstr .halt []⟩

end Sys2Proof
end

section
/-! The records of a stream and the whole stream: `decodeRecords` and `decode` as inverses of the encoder, and the
failures of R79 and R80. -/

namespace Sys2Proof

open Laws.RecordShape (leBytes_length)

/-! ### Records packed end to end (R72) -/

theorem decodeRecords_succ_of_error {bs : List Byte} {e : DecodeError} (h : decodeRecord bs = .error e) (n : Nat) :
    decodeRecords (n + 1) bs = .error e := by
  simp only [decodeRecords, h]

theorem decodeRecords_succ_encodeInstr (n : Nat) (i : Instr) (rest : List Byte) :
    decodeRecords (n + 1) (encodeInstr i ++ rest) = (decodeRecords n rest).map fun q => (i :: q.1, q.2) := by
  cases h : decodeRecords n rest with
  | error e => simp only [decodeRecords, decodeRecord_encodeInstr, h, Except.map]
  | ok q => simp only [decodeRecords, decodeRecord_encodeInstr, h, Except.map]

/-- Whole records at the front decode to their instructions, and the answer is that of what follows them. -/
theorem decodeRecords_flatMap_append (p : Program) (n : Nat) (rest : List Byte) :
    decodeRecords (p.length + n) (p.flatMap encodeInstr ++ rest) =
      (decodeRecords n rest).map fun q => (p ++ q.1, q.2) := by
  induction p with
  | nil =>
    rw [List.length_nil, Nat.zero_add]
    cases h : decodeRecords n rest <;> simp [h, Except.map]
  | cons i p ih =>
    rw [List.length_cons, Nat.add_right_comm, List.flatMap_cons, List.append_assoc, decodeRecords_succ_encodeInstr, ih]
    cases decodeRecords n rest <;> rfl

theorem decodeRecords_flatMap (p : Program) (rest : List Byte) :
    decodeRecords p.length (p.flatMap encodeInstr ++ rest) = .ok (p, rest) := by
  have h := decodeRecords_flatMap_append p 0 rest
  rwa [decodeRecords, Except.map, List.append_nil] at h

/-- R79: the first failure, met after whole records, is the one reported. -/
theorem decodeRecords_of_error {bs : List Byte} {e : DecodeError} (h : decodeRecord bs = .error e) {p : Program}
    {n : Nat} (hn : p.length < n) : decodeRecords n (p.flatMap encodeInstr ++ bs) = .error e := by
  obtain ⟨m, rfl⟩ := Nat.exists_eq_add_of_lt hn
  rw [Nat.add_assoc, decodeRecords_flatMap_append, decodeRecords_succ_of_error h, Except.map]

/-- What `n` records off a stream can be: the records of a program of length `n`, or one of two errors. -/
theorem decodeRecords_cases (n : Nat) (bs : List Byte) :
    (∃ (p : Program) (rest : List Byte), p.length = n ∧ bs = p.flatMap encodeInstr ++ rest) ∨
      decodeRecords n bs = .error .truncated ∨ decodeRecords n bs = .error .unknownTag := by
  induction n generalizing bs with
  | zero => exact .inl ⟨[], bs, rfl, rfl⟩
  | succ n ih =>
    rcases decodeRecord_cases bs with ⟨i, rest, rfl⟩ | h | h
    · rw [decodeRecords_succ_encodeInstr]
      rcases ih rest with ⟨p, rest', rfl, rfl⟩ | h | h
      · exact .inl ⟨i :: p, rest', rfl, by rw [List.flatMap_cons, List.append_assoc]⟩
      · exact .inr (.inl (by rw [h, Except.map]))
      · exact .inr (.inr (by rw [h, Except.map]))
    · exact .inr (.inl (decodeRecords_succ_of_error h n))
    · exact .inr (.inr (decodeRecords_succ_of_error h n))

theorem decodeRecords_ok {n : Nat} {bs rest : List Byte} {p : Program} (h : decodeRecords n bs = .ok (p, rest)) :
    p.length = n ∧ bs = p.flatMap encodeInstr ++ rest := by
  rcases decodeRecords_cases n bs with ⟨q, rest', rfl, rfl⟩ | herr | herr
  · obtain ⟨rfl, rfl⟩ : q = p ∧ rest' = rest := by simpa [decodeRecords_flatMap] using h
    exact ⟨rfl, rfl⟩
  · simp [herr] at h
  · simp [herr] at h

/-- R79: the records cut anywhere are `Truncated`: the cut falls into the first record or after it. -/
theorem decodeRecords_take_flatMap {p : Program} {k : Nat} (hk : k < (p.flatMap encodeInstr).length) :
    decodeRecords p.length ((p.flatMap encodeInstr).take k) = .error .truncated := by
  induction p generalizing k with
  | nil => simp at hk
  | cons i p ih =>
    rw [List.flatMap_cons, List.length_append] at hk
    rw [List.length_cons, List.flatMap_cons, List.take_append]
    rcases Nat.lt_or_ge k (encodeInstr i).length with hcut | hcut
    · rw [Nat.sub_eq_zero_of_le (Nat.le_of_lt hcut), List.take_zero, List.append_nil]
      exact decodeRecords_succ_of_error (decodeRecord_take_encodeInstr hcut) _
    · rw [List.take_of_length_le hcut, decodeRecords_succ_encodeInstr, ih (by omega), Except.map]

theorem length_flatMap_encodeInstr (p : Program) :
    (p.flatMap encodeInstr).length = (p.map fun i => 1 + operandBytes (opcodeOf i)).sum := by
  rw [List.length_flatMap]
  exact congrArg List.sum (List.map_congr_left fun i _ => length_encodeInstr i)

/-- R83: every record has at least its tag byte. -/
theorem length_le_length_flatMap_encodeInstr (p : Program) : p.length ≤ (p.flatMap encodeInstr).length := by
  induction p with
  | nil => exact Nat.le_refl 0
  | cons i p ih =>
    rw [List.flatMap_cons, List.length_append, List.length_cons, length_encodeInstr]
    omega

/-! ### The whole stream (R79) -/

theorem decode_of_short {b : List Byte} (h : b.length < 8) : decode b = .error .truncated := by
  simp only [decode, if_pos h]

section Stream

variable {b : List Byte} (h8 : 8 ≤ b.length)
include h8

theorem decode_of_records_error {e : DecodeError}
    (h : decodeRecords (leValue (b.take 8)) (b.drop 8) = .error e) : decode b = .error e := by
  simp only [decode, if_neg (Nat.not_lt.2 h8), h]

theorem decode_of_records_end {p : Program}
    (h : decodeRecords (leValue (b.take 8)) (b.drop 8) = .ok (p, [])) : decode b = .ok p := by
  simp only [decode, if_neg (Nat.not_lt.2 h8), h]

theorem decode_of_records_more {p : Program} {c : Byte} {cs : List Byte}
    (h : decodeRecords (leValue (b.take 8)) (b.drop 8) = .ok (p, c :: cs)) : decode b = .error .trailingBytes := by
  simp only [decode, if_neg (Nat.not_lt.2 h8), h]

end Stream

/-- An accepted stream is a header and the records it counts, with nothing after them. -/
theorem decode_ok {b : List Byte} {p : Program} (h : decode b = .ok p) :
    8 ≤ b.length ∧ p.length = leValue (b.take 8) ∧ b.drop 8 = p.flatMap encodeInstr := by
  rcases Nat.lt_or_ge b.length 8 with hlt | h8
  · simp [decode_of_short hlt] at h
  · cases hrec : decodeRecords (leValue (b.take 8)) (b.drop 8) with
    | error e => simp [decode_of_records_error h8 hrec] at h
    | ok q =>
      obtain ⟨q, _ | ⟨c, cs⟩⟩ := q
      · obtain rfl : q = p := by simpa [decode_of_records_end h8 hrec] using h
        obtain ⟨hlen, hbytes⟩ := decodeRecords_ok hrec
        exact ⟨h8, hlen, by rw [hbytes, List.append_nil]⟩
      · simp [decode_of_records_more h8 hrec] at h

/-! ### A stream written as header and rest -/

theorem length_header_append (n : Nat) (bs : List Byte) : 8 ≤ (leBytes 8 n ++ bs).length := by
  rw [List.length_append, leBytes_length]
  exact Nat.le_add_right 8 _

/-- The decoder reads back a count that fits the header and goes on behind it. -/
theorem decodeRecords_header {n : Nat} (hn : n ≤ 2 ^ 64 - 1) (bs : List Byte) :
    decodeRecords (leValue ((leBytes 8 n ++ bs).take 8)) ((leBytes 8 n ++ bs).drop 8) = decodeRecords n bs := by
  rw [List.take_left' (leBytes_length 8 n), List.drop_left' (leBytes_length 8 n), leValue_leBytes,
    Nat.mod_eq_of_lt (by omega)]

/-- R85, one direction: decoding inverts encoding. -/
theorem decode_encode {p : Program} (hp : p.WellFormed) : decode (encode p) = .ok p := by
  refine decode_of_records_end (length_header_append _ _) ((decodeRecords_header hp _).trans ?_)
  have h := decodeRecords_flatMap p []
  rwa [List.append_nil] at h

/-- R85, the other: an accepted stream is the encoding of its program. -/
theorem encode_of_decode_ok {b : List Byte} {p : Program} (h : decode b = .ok p) : encode p = b := by
  obtain ⟨h8, hlen, hrecords⟩ := decode_ok h
  have hheader : leBytes 8 (leValue (b.take 8)) = b.take 8 := by
    have hle := leBytes_leValue (b.take 8)
    rwa [List.length_take_of_le h8] at hle
  rw [encode, hlen, hheader, ← hrecords, List.take_append_drop]

/-- Settles O3: the two directions of R85. -/
theorem programsAndStreamsCorrespond : Obligations.ProgramsAndStreamsCorrespond :=
  ⟨fun _ => decode_encode, fun _ _ => encode_of_decode_ok⟩

/-- Settles O4: the tag is the first failure, and a counted record is still to come there. -/
theorem outOfRangeTagIsRefused : Obligations.OutOfRangeTagIsRefused := by
  intro p n tag rest hlt hn htag
  refine decode_of_records_error (length_header_append _ _) ((decodeRecords_header hn _).trans ?_)
  exact decodeRecords_of_error (decodeRecord_of_unknown (opcodeOfTag_of_six_lt htag) rest) hlt

/-- Settles O5: the cut falls into the header or into the records. -/
theorem cutStreamIsTruncated : Obligations.CutStreamIsTruncated := by
  intro p k hp hk
  rcases Nat.lt_or_ge k 8 with hcut | hcut
  · exact decode_of_short (by rw [List.length_take]; omega)
  · rw [encode, List.length_append, leBytes_length] at hk
    rw [encode, List.take_append, leBytes_length, List.take_of_length_le (by rwa [leBytes_length])]
    refine decode_of_records_error (length_header_append _ _) ((decodeRecords_header hp _).trans ?_)
    exact decodeRecords_take_flatMap (by omega)

/-- Settles O6: the counted records decode and leave the extra bytes. -/
theorem extraBytesAreTrailing : Obligations.ExtraBytesAreTrailing := by
  intro p b bs hp
  rw [encode, List.append_assoc]
  exact decode_of_records_more (length_header_append _ _)
    ((decodeRecords_header hp _).trans (decodeRecords_flatMap p _))

/-- R83: an accepted stream is as long as its header and its records. -/
theorem length_of_decode_ok {b : List Byte} {p : Program} (h : decode b = .ok p) :
    b.length = 8 + (p.flatMap encodeInstr).length := by
  rw [← encode_of_decode_ok h, encode, List.length_append, leBytes_length]

/-- R83: a count that exceeds the bytes after the header runs out of records. -/
theorem decode_of_excess_count {b : List Byte} (h8 : 8 ≤ b.length) (hcount : b.length - 8 < leValue (b.take 8)) :
    decode b = .error .truncated ∨ decode b = .error .unknownTag := by
  rcases decodeRecords_cases (leValue (b.take 8)) (b.drop 8) with ⟨p, rest, hlen, hbytes⟩ | herr | herr
  · have hle := length_le_length_flatMap_encodeInstr p
    have htotal := congrArg List.length hbytes
    rw [List.length_drop, List.length_append] at htotal
    omega
  · exact .inl (decode_of_records_error h8 herr)
  · exact .inr (decode_of_records_error h8 herr)

/-- Settles O7: the first clause from the shape of an accepted stream, the last because no records are read. -/
theorem headerCountIsProgramLength : Obligations.HeaderCountIsProgramLength := by
  refine ⟨fun b p h => ?_, fun b => decode_of_excess_count, fun b hlen hcount => ?_⟩
  · obtain ⟨-, hcount, -⟩ := decode_ok h
    have hlen := length_of_decode_ok h
    have hle := length_le_length_flatMap_encodeInstr p
    exact ⟨hcount, by rw [hlen, length_flatMap_encodeInstr], by omega⟩
  · refine decode_of_records_end hlen.ge ?_
    rw [List.take_of_length_le hlen.le, hcount, List.drop_of_length_le hlen.le, decodeRecords]

end Sys2Proof
end

section
/-! The two loads in terms of the decoder (R81, R151, R153). -/

namespace Sys2Proof.Machine

open Sys2Proof

theorem load_of_decode_error {bytes : List Byte} {e : DecodeError} (h : decode bytes = .error e) (s : State) :
    load bytes s = (s, loadCode (some e)) := by
  simp only [load, h]

theorem load_of_decode_ok {bytes : List Byte} {p : Program} (h : decode bytes = .ok p) (s : State) :
    load bytes s = (State.initial s.cfg p, 0) := by
  simp only [load, h, loadCode]

theorem loadCode_error_ne_zero (e : DecodeError) : loadCode (some e) ≠ 0 := by
  cases e <;> decide

theorem loadDirect_of_wf {p : Program} (hp : p.WellFormed) (s : State) :
    loadDirect p s = some (State.initial s.cfg p) := if_pos hp

theorem loadDirect_of_not_wf {p : Program} (hp : ¬ p.WellFormed) (s : State) : loadDirect p s = none := if_neg hp

/-- Settles O48: a failed load answers its own state and a code that is not that of success. -/
theorem failedLoadChangesNothing : Obligations.FailedLoadChangesNothing :=
  fun s _ e h => ⟨load_of_decode_error h s, loadCode_error_ne_zero e⟩

/-- Settles O50: a legal program's encoding decodes to it, so both loads reset to the same program. -/
theorem loadDirectIsLoadOfEncoding : Obligations.LoadDirectIsLoadOfEncoding := by
  refine fun s p => ⟨fun hp => ?_, fun hp => ?_⟩
  · have hload := load_of_decode_ok (decode_encode hp) s
    have hdirect := loadDirect_of_wf hp s
    simp only [transact, hload, hdirect, loadCode, and_self]
  · have hdirect := loadDirect_of_not_wf hp s
    simp only [transact, hdirect, and_self]

end Sys2Proof.Machine
end

section
/-! The step cycle (R100 to R106): the ceiling test, the fetch, the totality of a step and the end of every run under a
step limit. -/

namespace Sys2Proof.Machine

open Sys2Proof

/-! ### The ceiling (R101) -/

theorem ceilingReached_iff {s : State} :
    s.ceilingReached = true ↔ ∃ m, s.cfg.stepLimit = some m ∧ m ≤ s.steps := by
  cases hlimit : s.cfg.stepLimit with
  | none => simp [State.ceilingReached, hlimit]
  | some m => simp [State.ceilingReached, hlimit]

/-- No step has been counted after a reset, so only the limit 0 is reached. -/
theorem initial_ceilingReached {cfg : Config} (hlimit : cfg.stepLimit ≠ some 0) (p : Program) :
    (State.initial cfg p).ceilingReached = false := by
  refine Bool.eq_false_iff.2 fun hceil => ?_
  obtain ⟨m, hm, hle⟩ := ceilingReached_iff.1 hceil
  obtain rfl : m = 0 := Nat.le_zero.1 hle
  exact hlimit hm

/-- Settles O24: both clauses read off `ceilingReached_iff`. -/
theorem stepCeilingFaultsFirst : Obligations.StepCeilingFaultsFirst := by
  refine ⟨fun s m hrun hlimit hle => step_of_ceiling hrun (ceilingReached_iff.2 ⟨m, hlimit, hle⟩),
    fun s hnone => ?_⟩
  refine Bool.eq_false_iff.2 fun hceil => ?_
  obtain ⟨m, hm, -⟩ := ceilingReached_iff.1 hceil
  rw [hnone] at hm
  cases hm

/-! ### The fetch (R102, R103) -/

@[simp] theorem initial_ip (cfg : Config) (p : Program) : (State.initial cfg p).ip = 0 := initial_xread cfg p ipIndex

/-- After a reset IP is 0, so the first instruction is the one fetched. -/
theorem initial_fetch (cfg : Config) (p : Program) : (State.initial cfg p).fetch = p[0]? := by
  rw [State.fetch, initial_ip]
  rfl

/-- Settles O23: a successful load leaves the reset state, whose first fetch is the first decoded instruction. -/
theorem stepRunsTheFetchedInstruction : Obligations.StepRunsTheFetchedInstruction := by
  refine ⟨fun s i hrun hceil hfetch => step_of_fetch hrun hceil hfetch, fun s bytes i p _ hlimit hdecode => ?_⟩
  rw [load_of_decode_ok hdecode]
  exact step_of_fetch rfl (initial_ceilingReached hlimit _) (initial_fetch s.cfg (i :: p))

theorem step_of_ip_out_of_bounds {s : State} (hrun : s.status = .running) (hceil : s.ceilingReached = false)
    (hip : s.prog.length ≤ s.ip.toNat) :
    step s = .next (s.countStep.setStatus (.faulted .instructionPointerOutOfBounds)) :=
  step_of_no_fetch hrun hceil (fetch_of_le hip)

/-- R130: a fetched `Jump` completes whatever its target. -/
theorem step_of_fetch_jump {s : State} {target : Word} (hrun : s.status = .running) (hceil : s.ceilingReached = false)
    (hfetch : s.fetch = some (.jump target)) : step s = .next (s.countStep.setIp target) :=
  step_of_fetch hrun hceil hfetch

/-- Settles O25: the fault of R102 at the state itself, after a jump and at reset; where the last instruction is no
jump, IP advances by one (R25) in a program that no step replaces. -/
theorem ipOutOfBoundsFaultsBeforeFetch : Obligations.IpOutOfBoundsFaultsBeforeFetch := by
  refine ⟨fun s => step_of_ip_out_of_bounds, fun s target h hrun hceil hfetch hout => ?_,
    fun s t h hrun _ hlast hjump hstep hrun' => ?_, fun cfg hlimit => ?_⟩
  · have hip : (s.countStep.setIp target).ip = target := setIp_ip (x_length_pos h) target
    have hout' : (s.countStep.setIp target).prog.length ≤ (s.countStep.setIp target).ip.toNat := by rwa [hip]
    exact ⟨_, step_of_fetch_jump hrun hceil hfetch, hrun, hip,
      fun hceil' => ⟨_, step_of_ip_out_of_bounds hrun hceil' hout', rfl, hip⟩⟩
  · rcases (ipAdvancesByOneOrJumps s t h hrun hstep).1 hrun' with ⟨target, hfetch, -⟩ | ⟨-, hip⟩
    · exact absurd hfetch (hjump target)
    · rw [hip, hlast, (step_keeps_program hstep).1]
  · exact ⟨_, step_of_no_fetch rfl (initial_ceilingReached hlimit []) (initial_fetch cfg []), rfl⟩

/-! ### Totality (R100) and terminal states (R105) -/

/-- With SP within the stack an instruction ends in its fault or in its whole effect: a next state either way. -/
theorem exec_answers {s : State} (hsp : s.sp.toNat ≤ s.cfg.stackCap) (i : Instr) : ∃ t, exec i s = .next t := by
  cases hfault : instrFault i s with
  | some r => exact ⟨_, exec_of_fault hfault⟩
  | none => exact ⟨_, exec_of_completes hfault hsp⟩

/-- Settles O34: the tests before the fetch answer a next state, and so does the instruction fetched. -/
theorem wellFormedStatesAlwaysStep : Obligations.WellFormedStatesAlwaysStep := by
  intro s h
  cases hterm : s.status.terminal with
  | true => exact ⟨s, step_of_terminal hterm⟩
  | false =>
    have hrun := terminal_eq_false hterm
    cases hceil : s.ceilingReached with
    | true => exact ⟨_, step_of_ceiling hrun hceil⟩
    | false =>
      cases hfetch : s.fetch with
      | none => exact ⟨_, step_of_no_fetch hrun hceil hfetch⟩
      | some i =>
        rw [SafeStep, step_of_fetch hrun hceil hfetch]
        exact exec_answers (s := s.countStep) h.sp i

/-- Settles O26, by induction on the number of steps. -/
theorem terminalStatesAbsorbSteps : Obligations.TerminalStatesAbsorbSteps := by
  intro s k hterm
  induction k with
  | zero => rfl
  | succ k ih => rw [run_succ_of_step (step_of_terminal hterm), ih]

/-! ### The step limit (R106) -/

/-- With a limit, a step ends in a terminal state or uses up one of the steps left. -/
theorem step_ends_or_counts {s u : State} {m : Nat} (hlimit : s.cfg.stepLimit = some m) (hstep : step s = .next u) :
    u.status.terminal = true ∨ (s.steps < m ∧ u.steps = s.steps + 1) := by
  cases step_outcome hstep with
  | absorbs hterm => exact .inl hterm
  | faultsUncounted => exact .inl rfl
  | faultsCounted => exact .inl rfl
  | completes _ hceil i =>
    obtain ⟨-, -, hsteps, -⟩ := effect_sameFixed i s.countStep
    exact .inr ⟨steps_lt_of_ceilingReached_eq_false hlimit hceil, hsteps⟩

/-- The bound of R106, `n` being at least the steps left: the last step of the run is terminal at the latest. -/
theorem run_terminal_of_steps_left {n m : Nat} {s : State} (h : WellFormedState s) (hlimit : s.cfg.stepLimit = some m)
    (hn : m ≤ s.steps + n) : ∃ t, core.run (n + 1) s = .next t ∧ t.status.terminal = true := by
  induction n generalizing s with
  | zero =>
    obtain ⟨u, hstep⟩ := wellFormedStatesAlwaysStep s h
    have hterm := (step_ends_or_counts hlimit hstep).resolve_right fun hcounts => by omega
    exact ⟨u, run_succ_of_step hstep 0, hterm⟩
  | succ n ih =>
    obtain ⟨u, hstep⟩ := wellFormedStatesAlwaysStep s h
    rw [run_succ_of_step hstep]
    rcases step_ends_or_counts hlimit hstep with hterm | ⟨-, hsteps⟩
    · exact ⟨u, terminalStatesAbsorbSteps u _ hterm, hterm⟩
    · have hlimit' : u.cfg.stepLimit = some m := by rw [(step_keeps_program hstep).2, hlimit]
      exact ih (stepKeepsWellFormedness s u h hstep) hlimit' (by omega)

/-- Settles O45: `m - s.steps` steps are left. -/
theorem stepLimitEndsEveryRun : Obligations.StepLimitEndsEveryRun :=
  fun _ _ h hlimit => run_terminal_of_steps_left h hlimit (by omega)

end Sys2Proof.Machine
end

section
/-! The two moves (R110, R111), which write one GPR and advance IP, and the register operand out of range
(R171 row 4). -/

namespace Sys2Proof.Machine

open Sys2Proof

/-- The register a move writes reads the value, the advance of IP not reaching it. -/
theorem xwrite_gprIndex_advance_gpr {s : State} (h : WellFormedState s) {j : Nat} (hj : j < s.cfg.nGpr) (v : Word) :
    (s.xwrite (gprIndex s.cfg j) v).advance.gpr j = v :=
  (advance_gpr (wf_xwrite_gprIndex h j v) j).trans ((xwrite_gprIndex_gpr h hj v j).trans (if_pos rfl))

/-- Only IP and the register written change. -/
theorem xwrite_advance_xread_of_ne {s : State} {i k : Nat} (hip : i ≠ ipIndex) (hk : i ≠ k) (v : Word) :
    (s.xwrite k v).advance.xread i = s.xread i :=
  (advance_xread hip).trans (xread_xwrite_ne hk v)

/-- With a good source `MoveRegister` is `MoveImmediate` of the source's value, whatever the destination. -/
theorem exec_moveRegister_of_lt {s : State} {src : Word} (hsrc : src.toNat < s.cfg.nGpr) (dst : Word) :
    exec (.moveRegister src dst) s = exec (.moveImmediate (s.gpr src.toNat) dst) s := by
  simp only [exec, execMoveRegister, execMoveImmediate, readGpr_of_lt hsrc, bind, Except.bind]

/-- Settles O9: the table of R171 gives no reason, and `effect` writes `gpr[dst]` and advances. -/
theorem moveImmediateLoadsGpr : Obligations.MoveImmediateLoadsGpr := by
  intro s value dst h hdst
  have hok : instrFault (.moveImmediate value dst) s = none := instrFault_moveImmediate_eq_none.2 hdst
  exact ⟨_, exec_of_completes hok h.sp, xwrite_gprIndex_advance_gpr h hdst value,
    effect_ip_of_advances h (by simp) (by simp), fun _ hip hne => xwrite_advance_xread_of_ne hip hne value,
    fun _ => rfl, rfl, rfl, effect_sameFixed _ s⟩

/-- Settles O8: the case of `MoveImmediate` with the value of `gpr[src]`. -/
theorem moveRegisterCopiesGpr : Obligations.MoveRegisterCopiesGpr := by
  intro s src dst h hsrc hdst
  rw [exec_moveRegister_of_lt hsrc]
  exact moveImmediateLoadsGpr s _ dst h hdst

/-- Settles O15: in each instruction's row of `instrFault` the operand's test is the first, before the stack's (D8). -/
theorem badRegisterIndexFaults : Obligations.BadRegisterIndexFaults :=
  fun _ => ⟨fun _ _ hbad => exec_of_fault (if_pos hbad), fun _ _ hdst => exec_of_fault (if_pos hdst),
    fun _ hreg => exec_of_fault (if_pos hreg), fun _ hreg => exec_of_fault (if_pos hreg),
    fun _ hindex => exec_of_fault (if_pos hindex)⟩

end Sys2Proof.Machine
end

section
/-! The two stack instructions (R120, R121): what each writes and leaves unchanged, their faults on the full and on the
empty stack, and N pushes followed by N pops (R122). -/

namespace Sys2Proof.Machine

open Sys2Proof

section PushPopFrame

variable {s : State} {reg : Word}

theorem push_sp (h : WellFormedState s) : (effect (.push reg) s).sp = s.sp + 1 :=
  (advance_sp _).trans (setStk_setSp_sp h _ _)

theorem push_xread_of_ne {i : Nat} (hip : i ≠ ipIndex) (hsp : i ≠ spIndex) :
    (effect (.push reg) s).xread i = s.xread i :=
  (advance_xread hip).trans (setSp_xread hsp _)

theorem push_gpr (h : WellFormedState s) (j : Nat) : (effect (.push reg) s).gpr j = s.gpr j :=
  push_xread_of_ne (gprIndex_ne_ip h j) (gprIndex_ne_sp h j)

theorem pop_xread_of_ne {i : Nat} (hip : i ≠ ipIndex) (hsp : i ≠ spIndex) (hreg : i ≠ gprIndex s.cfg reg.toNat) :
    (effect (.pop reg) s).xread i = s.xread i :=
  (xwrite_advance_xread_of_ne hip hreg _).trans (setSp_xread hsp _)

theorem pop_gpr_of_ne (h : WellFormedState s) {j : Nat} (hj : j ≠ reg.toNat) :
    (effect (.pop reg) s).gpr j = s.gpr j :=
  pop_xread_of_ne (gprIndex_ne_ip h j) (gprIndex_ne_sp h j) fun he => hj (Nat.add_left_cancel he)

end PushPopFrame

/-- Settles O10: with room the table of R171 gives no reason, and `effect` writes the cell at the old SP. -/
theorem pushStoresGprAtSp : Obligations.PushStoresGprAtSp := by
  intro s reg h hreg hroom
  have hok : instrFault (.push reg) s = none := instrFault_push_eq_none.2 ⟨hreg, Nat.ne_of_lt hroom⟩
  exact ⟨_, exec_of_completes hok h.sp, (push_read h _).trans (if_pos rfl),
    fun k hk => (push_read h k).trans (if_neg hk), push_sp h, push_sp_toNat h hok,
    effect_ip_of_advances h (by simp) (by simp), fun _ => push_xread_of_ne, rfl, rfl, effect_sameFixed _ s⟩

/-- Settles O11: with a value there the table of R171 gives no reason, and `effect` reads the cell at the new SP. -/
theorem popLoadsGprFromBelowSp : Obligations.PopLoadsGprFromBelowSp := by
  intro s reg h hreg h0
  have hok : instrFault (.pop reg) s = none := instrFault_pop_eq_none.2 ⟨hreg, h0⟩
  exact ⟨_, exec_of_completes hok h.sp, pop_gpr h hok, pop_sp_toNat h hok,
    effect_ip_of_advances h (by simp) (by simp), fun _ => pop_xread_of_ne, fun _ => rfl, rfl, rfl,
    effect_sameFixed _ s⟩

/-- Settles O16: in the row of `Push` the register's test passes and the stack's does not. -/
theorem pushOnFullStackFaults : Obligations.PushOnFullStackFaults :=
  fun _ _ hreg hfull => exec_of_fault ((if_neg (Nat.not_le.2 hreg)).trans (if_pos hfull))

/-- Settles O17: in the row of `Pop` the register's test passes and the stack's does not. -/
theorem popOnEmptyStackFaults : Obligations.PopOnEmptyStackFaults :=
  fun _ _ hreg hempty => exec_of_fault ((if_neg (Nat.not_le.2 hreg)).trans (if_pos hempty))

/-! ### Sequences of instructions (R122) -/

theorem execAll_cons_of_next {i : Instr} {s t : State} (h : exec i s = .next t) (is : List Instr) :
    execAll (i :: is) s = execAll is t := by
  simp only [execAll, h]

theorem execAll_append_of_next {is : List Instr} {s u : State} (h : execAll is s = .next u) (js : List Instr) :
    execAll (is ++ js) s = execAll js u := by
  induction is generalizing s with
  | nil =>
    obtain rfl : s = u := by simpa only [execAll, Host.Outcome.next.injEq] using h
    rfl
  | cons i is ih =>
    cases hi : exec i s with
    | next t =>
      rw [execAll_cons_of_next hi] at h
      rw [List.cons_append, execAll_cons_of_next hi, ih h]
    | fault f => simp [execAll, hi] at h
    | refused r => simp [execAll, hi] at h

/-- With room for them, pushes of good registers put their values on the live stack, the latest on top, and leave
every GPR as it was. -/
theorem execAll_pushes {srcs : List Word} {s : State} (h : WellFormedState s)
    (hroom : s.sp.toNat + srcs.length ≤ s.cfg.stackCap) (hgood : ∀ r ∈ srcs, r.toNat < s.cfg.nGpr) :
    ∃ u, execAll (srcs.map Instr.push) s = .next u ∧ WellFormedState u ∧ u.cfg = s.cfg ∧ u.status = s.status ∧
      liveStack u = liveStack s ++ srcs.map (fun r => s.gpr r.toNat) ∧ ∀ j, u.gpr j = s.gpr j := by
  induction srcs generalizing s with
  | nil => exact ⟨s, rfl, h, rfl, rfl, by simp, fun _ => rfl⟩
  | cons r srcs ih =>
    obtain ⟨hr, hgood'⟩ := List.forall_mem_cons.1 hgood
    rw [List.length_cons] at hroom
    have hok : instrFault (.push r) s = none := instrFault_push_eq_none.2 ⟨hr, by omega⟩
    have hroom' : (effect (.push r) s).sp.toNat + srcs.length ≤ s.cfg.stackCap := by
      rw [push_sp_toNat h hok]
      omega
    obtain ⟨u, hexec, hu, hcfg, hstatus, hlive, hgpr⟩ := ih (wf_effect h hok) hroom' hgood'
    refine ⟨u, (execAll_cons_of_next (exec_of_completes hok h.sp) _).trans hexec, hu, hcfg, hstatus, ?_,
      fun j => (hgpr j).trans (push_gpr h j)⟩
    simp only [hlive, liveStack_push h hok, push_gpr h, List.append_assoc, List.singleton_append, List.map_cons]

/-- Pops into distinct good registers take the top values off the live stack, `vals` listing them top first, and leave
every other GPR as it was. -/
theorem execAll_pops {dsts vals base : List Word} {s : State} (h : WellFormedState s)
    (hlive : liveStack s = base ++ vals.reverse) (hlen : vals.length = dsts.length) (hnodup : dsts.Nodup)
    (hgood : ∀ r ∈ dsts, r.toNat < s.cfg.nGpr) :
    ∃ t, execAll (dsts.map Instr.pop) s = .next t ∧ t.status = s.status ∧ liveStack t = base ∧
      dsts.map (fun r => t.gpr r.toNat) = vals ∧ ∀ j, (∀ r ∈ dsts, r.toNat ≠ j) → t.gpr j = s.gpr j := by
  induction dsts generalizing s vals with
  | nil =>
    obtain rfl := List.length_eq_zero_iff.1 hlen
    exact ⟨s, rfl, rfl, by simpa using hlive, rfl, fun _ _ => rfl⟩
  | cons r dsts ih =>
    obtain ⟨v, vals, rfl⟩ := List.exists_cons_of_length_eq_add_one hlen
    obtain ⟨hr, hgood'⟩ := List.forall_mem_cons.1 hgood
    obtain ⟨hnotin, hnodup'⟩ := List.nodup_cons.1 hnodup
    rw [List.reverse_cons, ← List.append_assoc] at hlive
    have hsp : s.sp.toNat ≠ 0 := by
      rw [← length_liveStack, hlive, List.length_append, List.length_singleton]
      exact Nat.succ_ne_zero _
    have hok : instrFault (.pop r) s = none := instrFault_pop_eq_none.2 ⟨hr, hsp⟩
    obtain ⟨hbelow, htop⟩ := List.append_inj' ((liveStack_pop h hok).symm.trans hlive) rfl
    obtain ⟨t, hexec, hstatus, hbase, hvals, hframe⟩ :=
      ih (wf_effect h hok) hbelow (Nat.succ.inj hlen) hnodup' hgood'
    have hkept : t.gpr r.toNat = (effect (.pop r) s).gpr r.toNat :=
      hframe _ fun r' hr' he => hnotin (BitVec.eq_of_toNat_eq he ▸ hr')
    refine ⟨t, (execAll_cons_of_next (exec_of_completes hok h.sp) _).trans hexec, hstatus, hbase, ?_, fun j hj => ?_⟩
    · rw [List.map_cons, hvals, hkept, List.singleton_inj.1 htop]
    · obtain ⟨hne, hj'⟩ := List.forall_mem_cons.1 hj
      exact (hframe j hj').trans (pop_gpr_of_ne h hne.symm)

/-- Settles O44: the pushes put the values on the live stack, the pops take them off top first, and the stack left has
the length SP had. -/
theorem pushesThenPopsReverse : Obligations.PushesThenPopsReverse := by
  intro s srcs dsts h hlen hroom hnodup hsrcs hdsts
  obtain ⟨u, hpush, hu, hcfg, hustatus, hulive, hugpr⟩ := execAll_pushes h hroom hsrcs
  obtain ⟨t, hpop, htstatus, htlive, hvals, hframe⟩ :=
    execAll_pops (vals := srcs.reverse.map fun r => s.gpr r.toNat) (base := liveStack s) hu
      (by rw [hulive, List.map_reverse, List.reverse_reverse]) (by simpa using hlen) hnodup (hcfg ▸ hdsts)
  have hsp : t.sp.toNat = s.sp.toNat := by rw [← length_liveStack, htlive, length_liveStack]
  refine ⟨t, (execAll_append_of_next hpush _).trans hpop, BitVec.eq_of_toNat_eq hsp, htstatus.trans hustatus,
    fun k hk => ?_, fun j _ hj => (hframe j hj).trans (hugpr j)⟩
  have hk' : k < srcs.reverse.length := by rwa [List.length_reverse, hlen]
  have hvalue := List.getElem_of_eq hvals (by rwa [List.length_map] : k < _)
  rwa [List.getElem_map, List.getElem_map, ← List.getD_eq_getElem _ 0 hk'] at hvalue

end Sys2Proof.Machine
end

section
/-! Control transfer and halt (R130, R131), and that control flow depends on no data (R132): two well-formed states
that agree on control take the same way through a step and agree on control after it. -/

namespace Sys2Proof.Machine

open Sys2Proof

theorem exec_jump (target : Word) (s : State) : exec (.jump target) s = .next (s.setIp target) := rfl

theorem exec_halt (s : State) : exec .halt s = .next (s.setStatus .halted) := rfl

/-- Settles O12: `exec` answers the state with IP written, which reads the target there and its own value elsewhere. -/
theorem jumpSetsIpToTarget : Obligations.JumpSetsIpToTarget := by
  intro s target h
  exact ⟨_, exec_jump target s, setIp_ip (x_length_pos h) target, fun _ hi => setIp_xread hi target, fun _ => rfl,
    rfl, rfl, effect_sameFixed (.jump target) s⟩

/-- Settles O14: `exec` answers the state with `status` written, which is no register and no cell. -/
theorem haltChangesOnlyStatus : Obligations.HaltChangesOnlyStatus := by
  intro s
  exact ⟨_, exec_halt s, setStatus_status s _, setStatus_ip s _, setStatus_sp s _, setStatus_xread s _, fun _ => rfl,
    setStatus_out s _, effect_sameFixed .halt s⟩

/-! ### What two states that agree on control have in common (R132) -/

section SameControl

variable {s t : State}

theorem SameControl.fetch_eq (h : SameControl s t) : t.fetch = s.fetch := by
  rw [State.fetch, State.fetch, h.prog, h.ip]

theorem SameControl.ceilingReached_eq (h : SameControl s t) : t.ceilingReached = s.ceilingReached := by
  rw [State.ceilingReached, State.ceilingReached, h.cfg, h.steps]

/-- The table of R171 looks only at the parameters and SP, which are part of control. -/
theorem SameControl.instrFault_eq (h : SameControl s t) (i : Instr) : instrFault i t = instrFault i s := by
  cases i with
  | moveRegister src dst => simp only [instrFault, h.cfg]
  | moveImmediate value dst => simp only [instrFault, h.cfg]
  | push reg => simp only [instrFault, h.cfg, h.sp]
  | pop reg => simp only [instrFault, h.cfg, h.sp]
  | jump target => rfl
  | outputRegister index => simp only [instrFault, h.cfg]
  | halt => rfl

theorem SameControl.setStatus (h : SameControl s t) (st : Status) : SameControl (s.setStatus st) (t.setStatus st) :=
  ⟨h.cfg, h.prog, rfl, h.steps, h.ip, h.sp⟩

theorem SameControl.countStep (h : SameControl s t) : SameControl s.countStep t.countStep :=
  ⟨h.cfg, h.prog, h.status, congrArg (· + 1) h.steps, h.ip, h.sp⟩

/-! ### What an instruction that completes does to control -/

theorem SameControl.effect_status_eq (h : SameControl s t) (i : Instr) :
    (effect i t).status = (effect i s).status := by
  by_cases hhalt : i = .halt
  · rw [hhalt]
    rfl
  · rw [effect_status_of_ne_halt hhalt, effect_status_of_ne_halt hhalt, h.status]

/-- A jump's target is the instruction's own operand; every other way to the next IP starts from the old IP. -/
theorem SameControl.effect_ip_eq (h : SameControl s t) (hs : WellFormedState s) (ht : WellFormedState t) (i : Instr) :
    (effect i t).ip = (effect i s).ip := by
  by_cases hjump : ∃ target, i = .jump target
  · obtain ⟨target, rfl⟩ := hjump
    exact (setIp_ip (x_length_pos ht) target).trans (setIp_ip (x_length_pos hs) target).symm
  · by_cases hhalt : i = .halt
    · rw [hhalt]
      exact h.ip
    · have hadv := not_exists.1 hjump
      rw [effect_ip_of_advances ht hadv hhalt, effect_ip_of_advances hs hadv hhalt, h.ip]

/-- Only `Push` and `Pop` move SP, by one whatever the value pushed or popped. -/
theorem SameControl.effect_sp_eq (h : SameControl s t) (hs : WellFormedState s) (ht : WellFormedState t) (i : Instr) :
    (effect i t).sp = (effect i s).sp := by
  by_cases hstack : (∃ reg, i = .push reg) ∨ ∃ reg, i = .pop reg
  · obtain ⟨reg, rfl⟩ | ⟨reg, rfl⟩ := hstack
    · rw [push_sp ht, push_sp hs, h.sp]
    · rw [pop_sp ht, pop_sp hs, h.sp]
  · obtain ⟨hsp, -⟩ := (effect_stack_cases hs i).resolve_right hstack
    obtain ⟨hsp', -⟩ := (effect_stack_cases ht i).resolve_right hstack
    rw [hsp', hsp, h.sp]

theorem SameControl.effect (h : SameControl s t) (hs : WellFormedState s) (ht : WellFormedState t) (i : Instr) :
    SameControl (effect i s) (effect i t) := by
  obtain ⟨hcfg, hprog, hsteps, -⟩ := effect_sameFixed i s
  obtain ⟨hcfg', hprog', hsteps', -⟩ := effect_sameFixed i t
  exact ⟨by rw [hcfg', hcfg, h.cfg], by rw [hprog', hprog, h.prog], h.effect_status_eq i,
    by rw [hsteps', hsteps, h.steps], h.effect_ip_eq hs ht i, h.effect_sp_eq hs ht i⟩

/-! ### Instructions, steps, runs -/

theorem SameControl.exec (h : SameControl s t) (hs : WellFormedState s) (ht : WellFormedState t) (i : Instr) :
    ∃ s' t', exec i s = .next s' ∧ exec i t = .next t' ∧ SameControl s' t' := by
  cases hfault : instrFault i s with
  | some r => exact ⟨_, _, exec_of_fault hfault, exec_of_fault ((h.instrFault_eq i).trans hfault), h.setStatus _⟩
  | none =>
    exact ⟨_, _, exec_of_completes hfault hs.sp, exec_of_completes ((h.instrFault_eq i).trans hfault) ht.sp,
      h.effect hs ht i⟩

/-- Each test of a step (R100) reads control alone, so both states take the same branch. -/
theorem SameControl.step (h : SameControl s t) (hs : WellFormedState s) (ht : WellFormedState t) :
    ∃ s' t', step s = .next s' ∧ step t = .next t' ∧ SameControl s' t' := by
  cases hterm : s.status.terminal with
  | true => exact ⟨s, t, step_of_terminal hterm, step_of_terminal (h.status ▸ hterm), h⟩
  | false =>
    have hrun := terminal_eq_false hterm
    have hrun' := h.status.trans hrun
    cases hceil : s.ceilingReached with
    | true =>
      have hceil' := h.ceilingReached_eq.trans hceil
      exact ⟨_, _, step_of_ceiling hrun hceil, step_of_ceiling hrun' hceil', h.setStatus _⟩
    | false =>
      have hceil' := h.ceilingReached_eq.trans hceil
      cases hfetch : s.fetch with
      | none =>
        have hfetch' := h.fetch_eq.trans hfetch
        exact ⟨_, _, step_of_no_fetch hrun hceil hfetch, step_of_no_fetch hrun' hceil' hfetch',
          h.countStep.setStatus _⟩
      | some i =>
        rw [step_of_fetch hrun hceil hfetch, step_of_fetch hrun' hceil' (h.fetch_eq.trans hfetch)]
        exact h.countStep.exec (wf_countStep hs hceil) (wf_countStep ht hceil') i

end SameControl

/-- Settles O46, by induction on the number of steps: agreement on control and the invariant are kept together. -/
theorem controlFlowIgnoresData : Obligations.ControlFlowIgnoresData := by
  intro s t k hs ht h
  induction k generalizing s t with
  | zero => exact ⟨s, t, rfl, rfl, h⟩
  | succ k ih =>
    obtain ⟨s', t', hstep, hstep', h'⟩ := h.step hs ht
    rw [run_succ_of_step hstep, run_succ_of_step hstep']
    exact ih s' t' (stepKeepsWellFormedness s s' hs hstep) (stepKeepsWellFormedness t t' ht hstep') h'

end Sys2Proof.Machine
end

section
/-! Output (R140): a good index sends one event and advances IP, and every register but IP stays. -/

namespace Sys2Proof.Machine

open Sys2Proof

/-- The event sent is no register, and the advance reaches IP alone. -/
theorem outputRegister_xread_of_ne {s : State} (index : Half) {i : Nat} (hip : i ≠ ipIndex) :
    (effect (.outputRegister index) s).xread i = s.xread i :=
  (advance_xread hip).trans (emit_xread s _ _ i)

/-- Settles O13: the table of R171 gives no reason, and `effect` appends the event of `gpr[index]` and advances. -/
theorem outputRegisterEmitsOneEvent : Obligations.OutputRegisterEmitsOneEvent := by
  intro s index h hindex
  have hok : instrFault (.outputRegister index) s = none := instrFault_outputRegister_eq_none.2 hindex
  exact ⟨_, exec_of_completes hok h.sp, (advance_out _).trans (emit_out s _ _),
    effect_ip_of_advances h (by simp) (by simp), fun _ => outputRegister_xread_of_ne index, fun _ => rfl, rfl,
    effect_sameFixed _ s⟩

end Sys2Proof.Machine
end

section
/-! The host's transactions (R150 to R160), one equation per case of each, and that every one is answered and keeps the
invariant. -/

namespace Sys2Proof.Machine

open Sys2Proof

section Equations

variable {s t : State} {j v : Word}

/-! ### `PresetGpr` (R155) -/

theorem presetAllowed_iff :
    presetAllowed j s = true ↔ s.status = .running ∧ s.steps = 0 ∧ j.toNat < s.cfg.nGpr := by
  simp only [presetAllowed, Bool.and_eq_true, decide_eq_true_eq, gprOk_iff, and_assoc]

theorem presetGpr_of_allowed (hallowed : presetAllowed j s = true) (v : Word) :
    presetGpr j v s = some (s.xwrite (gprIndex s.cfg j.toNat) v) := if_pos hallowed

/-- Any one of the three ways out of the window refuses the preset. -/
theorem presetGpr_of_refused (hout : s.status ≠ .running ∨ s.steps ≠ 0 ∨ s.cfg.nGpr ≤ j.toNat) (v : Word) :
    presetGpr j v s = none := by
  refine if_neg fun hallowed => ?_
  obtain ⟨hrun, hsteps, hj⟩ := presetAllowed_iff.1 hallowed
  rcases hout with hne | hne | hle
  · exact hne hrun
  · exact hne hsteps
  · exact Nat.not_lt.2 hle hj

/-- A preset in its window writes the one GPR and nothing else. -/
theorem presetGpr_writes_gpr (h : WellFormedState s) (hrun : s.status = .running) (hsteps : s.steps = 0)
    (hj : j.toNat < s.cfg.nGpr) (v : Word) :
    ∃ t, presetGpr j v s = some t ∧ t.gpr j.toNat = v ∧
      (∀ i, i ≠ gprIndex s.cfg j.toNat → t.xread i = s.xread i) ∧
      t.stk = s.stk ∧ t.status = s.status ∧ t.out = s.out ∧ SameFixed s t :=
  ⟨_, presetGpr_of_allowed (presetAllowed_iff.2 ⟨hrun, hsteps, hj⟩) v, xread_xwrite_same (gprIndex_lt h hj) v,
    fun _ hi => xread_xwrite_ne hi v, rfl, rfl, rfl, rfl, rfl, rfl, rfl⟩

theorem presetGpr_wf (h : WellFormedState s) (hpreset : presetGpr j v s = some t) : WellFormedState t := by
  obtain ⟨-, rfl⟩ := presetGpr_some hpreset
  exact wf_xwrite_gprIndex h _ _

/-! ### `ReadGpr` (R154) -/

theorem hostReadGpr_of_lt (hj : j.toNat < s.cfg.nGpr) : hostReadGpr j s = some (s.gpr j.toNat) :=
  if_pos ((gprOk_iff _ _).2 hj)

theorem hostReadGpr_of_le (hj : s.cfg.nGpr ≤ j.toNat) : hostReadGpr j s = none :=
  if_neg fun hok => Nat.not_lt.2 hj ((gprOk_iff _ _).1 hok)

/-! ### The transactions whose answer depends on the state -/

theorem transact_step (hstep : step s = .next t) : transact .step s = .next (t, .stepped (emitted s t)) := by
  simp only [transact, hstep]

theorem transact_presetGpr_of_some (hpreset : presetGpr j v s = some t) :
    transact (.presetGpr j v) s = .next (t, .done) := by
  simp only [transact, hpreset]

theorem transact_presetGpr_of_none (hpreset : presetGpr j v s = none) :
    transact (.presetGpr j v) s = .next (s, .denied) := by
  simp only [transact, hpreset]

theorem transact_readGpr_of_lt (hj : j.toNat < s.cfg.nGpr) :
    transact (.readGpr j) s = .next (s, .value (s.gpr j.toNat)) := by
  simp only [transact, hostReadGpr_of_lt hj]

theorem transact_readGpr_of_le (hj : s.cfg.nGpr ≤ j.toNat) : transact (.readGpr j) s = .next (s, .outOfRange) := by
  simp only [transact, hostReadGpr_of_le hj]

/-! ### The loads and the resets keep the invariant -/

/-- R33: the header counts with eight bytes, so no accepted stream holds a program that is too long. -/
theorem program_wf_of_decode_ok {b : List Byte} {p : Program} (h : decode b = .ok p) : p.WellFormed := by
  obtain ⟨h8, hlen, -⟩ := decode_ok h
  have hlt := leValue_lt (b.take 8)
  rw [List.length_take_of_le h8, ← hlen] at hlt
  simp only [Program.WellFormed, maxProgramLength]
  omega

theorem load_wf (h : WellFormedState s) (bytes : List Byte) : WellFormedState (load bytes s).1 := by
  cases hdecode : decode bytes with
  | ok p =>
    rw [load_of_decode_ok hdecode]
    exact initial_wf h.cfg (program_wf_of_decode_ok hdecode)
  | error e => rwa [load_of_decode_error hdecode]

theorem hostReset_wf (h : WellFormedState s) : WellFormedState (hostReset s) := initial_wf h.cfg h.prog

end Equations

/-- Settles O35: transaction by transaction. -/
theorem transactionsKeepWellFormedness : Obligations.TransactionsKeepWellFormedness := by
  intro tr s h
  cases tr with
  | load bytes => exact ⟨_, _, rfl, load_wf h bytes⟩
  | loadDirect p =>
    by_cases hp : p.WellFormed
    · obtain ⟨-, -, -, hload⟩ := (loadDirectIsLoadOfEncoding s p).1 hp
      exact ⟨_, _, hload, initial_wf h.cfg hp⟩
    · obtain ⟨-, hdenied⟩ := (loadDirectIsLoadOfEncoding s p).2 hp
      exact ⟨_, _, hdenied, h⟩
  | reset => exact ⟨_, _, rfl, hostReset_wf h⟩
  | step =>
    obtain ⟨t, hstep⟩ := wellFormedStatesAlwaysStep s h
    exact ⟨_, _, transact_step hstep, stepKeepsWellFormedness s t h hstep⟩
  | presetGpr j v =>
    cases hpreset : presetGpr j v s with
    | some t => exact ⟨_, _, transact_presetGpr_of_some hpreset, presetGpr_wf h hpreset⟩
    | none => exact ⟨_, _, transact_presetGpr_of_none hpreset, h⟩
  | readGpr j =>
    rcases Nat.lt_or_ge j.toNat s.cfg.nGpr with hj | hj
    · exact ⟨_, _, transact_readGpr_of_lt hj, h⟩
    · exact ⟨_, _, transact_readGpr_of_le hj, h⟩
  | readControl c => exact ⟨_, _, rfl, h⟩
  | readStatus => exact ⟨_, _, rfl, h⟩

/-- Settles O53: of what a transaction can do, the hypotheses leave no effect at all and the write of a GPR, which
reaches no register below the GPRs and needs that no step has been taken. -/
theorem hostCannotWriteControl : Obligations.HostCannotWriteControl := by
  intro tr s t r h hstep hreset hload hloadDirect htr
  rcases transact_next htr with rfl | ⟨-, rfl | ⟨bytes, rfl⟩ | ⟨p, rfl⟩⟩ | ⟨rfl, -⟩ | ⟨j, v, -, hpreset⟩
  · exact ⟨rfl, rfl, fun _ _ => rfl, rfl, rfl, rfl, ⟨rfl, rfl, rfl, rfl⟩, fun _ => rfl⟩
  · exact absurd rfl hreset
  · exact absurd rfl (hload bytes)
  · exact absurd rfl (hloadDirect p)
  · exact absurd rfl hstep
  · obtain ⟨hallowed, rfl⟩ := presetGpr_some hpreset
    obtain ⟨-, hsteps, -⟩ := presetAllowed_iff.1 hallowed
    exact ⟨xwrite_gprIndex_ip h _ _, xwrite_gprIndex_sp h _ _, fun _ hi => xwrite_gprIndex_xread_of_lt hi _ _, rfl,
      rfl, rfl, ⟨rfl, rfl, rfl, rfl⟩, fun hne => absurd hsteps hne⟩

/-- Settles O49: the load's equation for a stream that decodes. -/
theorem successfulLoadInstallsAndResets : Obligations.SuccessfulLoadInstallsAndResets :=
  fun s _ _ hdecode => load_of_decode_ok hdecode s

/-- Settles O51: the preset's two equations, inside and outside its window. -/
theorem presetOnlyBeforeTheFirstStep : Obligations.PresetOnlyBeforeTheFirstStep := by
  refine fun s j v h => ⟨fun hrun hsteps hj => ?_, fun hout => ?_⟩
  · obtain ⟨t, hpreset, hwrites⟩ := presetGpr_writes_gpr h hrun hsteps hj v
    exact ⟨t, transact_presetGpr_of_some hpreset, hwrites⟩
  · exact transact_presetGpr_of_none (presetGpr_of_refused hout v)

/-- Settles O52: the two equations of `ReadGpr`; the other reads answer by definition. -/
theorem hostReadsChangeNothing : Obligations.HostReadsChangeNothing :=
  fun _ => ⟨fun _ => transact_readGpr_of_lt, fun _ => transact_readGpr_of_le, rfl, rfl, rfl⟩

end Sys2Proof.Machine
end

section
/-! The signal binding (R161): one equation per kind of clock edge, and from these the invariant, the stream of bytes as
one `Load`, and the priorities of the requests. -/

namespace Sys2Proof.Machine

open Sys2Proof

section Edges

variable {s t : State} {inp : Inputs} {bytes : List Byte}

/-! ### The edge with no load in progress and none starting -/

theorem idleEdge_of_run (hrun : inp.run = true) (hstep : step s = .next t) :
    idleEdge inp s = .next (t, { quiet with emit := emitted s t, dbgRefused := inp.dbgWe }) := by
  simp only [idleEdge, hrun, if_true, hstep]

theorem idleEdge_of_preset (hrun : inp.run = false) (hwe : inp.dbgWe = true)
    (hpreset : presetGpr inp.dbgAddr inp.dbgWdata s = some t) : idleEdge inp s = .next (t, quiet) := by
  simp only [idleEdge, hrun, Bool.false_eq_true, if_false, hwe, if_true, hpreset]

theorem idleEdge_of_preset_refused (hrun : inp.run = false) (hwe : inp.dbgWe = true)
    (hpreset : presetGpr inp.dbgAddr inp.dbgWdata s = none) :
    idleEdge inp s = .next (s, { quiet with dbgRefused := true }) := by
  simp only [idleEdge, hrun, Bool.false_eq_true, if_false, hwe, if_true, hpreset]

theorem idleEdge_of_no_request (hrun : inp.run = false) (hwe : inp.dbgWe = false) :
    idleEdge inp s = .next (s, quiet) := by
  simp only [idleEdge, hrun, Bool.false_eq_true, if_false, hwe]

/-! ### Every other edge -/

theorem clockEdge_of_rst (hrst : inp.rst = true) : clockEdge inp s = .next (hostReset s, quiet) := if_pos hrst

theorem clockEdge_of_idle (hrst : inp.rst = false) (hidle : s.loader = .idle) (hvalid : inp.ldValid = false) :
    clockEdge inp s = idleEdge inp s := by
  simp only [clockEdge, hrst, Bool.false_eq_true, if_false, hidle, hvalid]

/-- `bytes` have arrived of a stream that goes on: none of them when no load is in progress. -/
def Received (bytes : List Byte) (s : State) : Prop := (bytes = [] ∧ s.loader = .idle) ∨ s.loader = .receiving bytes

/-- A byte is taken whatever `run` and `dbg_we` are. -/
theorem clockEdge_of_byte (hrst : inp.rst = false) (hreceived : Received bytes s) (hvalid : inp.ldValid = true) :
    clockEdge inp s = .next (s.setLoader (takeByte bytes inp), quiet) := by
  rcases hreceived with ⟨rfl, hloader⟩ | hloader <;>
    simp only [clockEdge, hrst, Bool.false_eq_true, if_false, hloader, hvalid, if_true]

theorem clockEdge_of_gap (hrst : inp.rst = false) (hloader : s.loader = .receiving bytes)
    (hvalid : inp.ldValid = false) : clockEdge inp s = .next (s, quiet) := by
  simp only [clockEdge, hrst, Bool.false_eq_true, if_false, hloader, hvalid]

theorem clockEdge_of_committing (hrst : inp.rst = false) (hloader : s.loader = .committing bytes) :
    clockEdge inp s =
      .next ((load bytes (s.setLoader .idle)).1.setLoader (if inp.ldValid then takeByte [] inp else .idle),
        { quiet with ldDone := true, ldErr := (load bytes (s.setLoader .idle)).2 }) := by
  simp only [clockEdge, hrst, Bool.false_eq_true, if_false, hloader]

/-! ### The invariant -/

theorem wf_setLoader (h : WellFormedState s) (l : Loader) : WellFormedState (s.setLoader l) :=
  ⟨h.cfg, h.regs, h.sp, h.canonical, h.cells, h.prog, h.steps⟩

theorem idleEdge_wf (h : WellFormedState s) (inp : Inputs) :
    ∃ t p, idleEdge inp s = .next (t, p) ∧ WellFormedState t := by
  cases hrun : inp.run with
  | true =>
    obtain ⟨t, hstep⟩ := wellFormedStatesAlwaysStep s h
    exact ⟨_, _, idleEdge_of_run hrun hstep, stepKeepsWellFormedness s t h hstep⟩
  | false =>
    cases hwe : inp.dbgWe with
    | true =>
      cases hpreset : presetGpr inp.dbgAddr inp.dbgWdata s with
      | some t => exact ⟨_, _, idleEdge_of_preset hrun hwe hpreset, presetGpr_wf h hpreset⟩
      | none => exact ⟨_, _, idleEdge_of_preset_refused hrun hwe hpreset, h⟩
    | false => exact ⟨_, _, idleEdge_of_no_request hrun hwe, h⟩

end Edges

/-- Settles O36: `rst`, or where the load stands and whether a byte arrives. -/
theorem clockEdgesKeepWellFormedness : Obligations.ClockEdgesKeepWellFormedness := by
  intro inp s h
  cases hrst : inp.rst with
  | true => exact ⟨_, _, clockEdge_of_rst hrst, hostReset_wf h⟩
  | false =>
    cases hloader : s.loader with
    | idle =>
      cases hvalid : inp.ldValid with
      | true => exact ⟨_, _, clockEdge_of_byte hrst (.inl ⟨rfl, hloader⟩) hvalid, wf_setLoader h _⟩
      | false =>
        rw [clockEdge_of_idle hrst hloader hvalid]
        exact idleEdge_wf h inp
    | receiving bytes =>
      cases hvalid : inp.ldValid with
      | true => exact ⟨_, _, clockEdge_of_byte hrst (.inr hloader) hvalid, wf_setLoader h _⟩
      | false => exact ⟨_, _, clockEdge_of_gap hrst hloader hvalid, h⟩
    | committing bytes =>
      exact ⟨_, _, clockEdge_of_committing hrst hloader, wf_setLoader (load_wf (wf_setLoader h _) bytes) _⟩

/-! ### A stream of bytes is one `Load` (R151, R161) -/

section Stream

variable {s t : State} {p : Pulses} {inp last final : Inputs} {bytes : List Byte}

@[simp] theorem setLoader_setLoader (s : State) (l l' : Loader) : (s.setLoader l).setLoader l' = s.setLoader l' := rfl

theorem setLoader_of_loader_eq {l : Loader} (h : s.loader = l) : s.setLoader l = s := by
  subst h
  rfl

/-- A reset state has no load in progress (log 10), and a failed load leaves the loader alone. -/
theorem load_loader (h : s.loader = .idle) (bytes : List Byte) : (load bytes s).1.loader = .idle := by
  cases hdecode : decode bytes with
  | ok p =>
    rw [load_of_decode_ok hdecode]
    rfl
  | error e => rwa [load_of_decode_error hdecode]

theorem clockEdges_cons {inps : List Inputs} (hedge : clockEdge inp s = .next (t, p)) (hne : inps ≠ []) :
    clockEdges (inp :: inps) s = clockEdges inps t := by
  cases inps with
  | nil => exact absurd rfl hne
  | cons inp' inps' => simp only [clockEdges, hedge]

theorem takeByte_of_last (hlast : inp.ldLast = true) : takeByte bytes inp = .committing (bytes ++ [inp.ldByte]) :=
  if_pos hlast

theorem takeByte_of_not_last (hlast : inp.ldLast = false) : takeByte bytes inp = .receiving (bytes ++ [inp.ldByte]) :=
  if_neg (Bool.eq_false_iff.1 hlast)

/-- The edges of a stream collect its bytes: before the finishing edge they are what is to be committed. -/
theorem clockEdges_stream {inps : List Inputs} (hreceived : Received bytes s)
    (hbytes : ∀ i ∈ inps, i.rst = false ∧ i.ldValid = true ∧ i.ldLast = false)
    (hrst : last.rst = false) (hvalid : last.ldValid = true) (hlast : last.ldLast = true) (final : Inputs) :
    clockEdges (inps ++ [last, final]) s =
      clockEdge final (s.setLoader (.committing (bytes ++ (inps.map Inputs.ldByte ++ [last.ldByte])))) := by
  induction inps generalizing s bytes with
  | nil =>
    have hedge := clockEdge_of_byte hrst hreceived hvalid
    rw [takeByte_of_last hlast] at hedge
    exact clockEdges_cons hedge (List.cons_ne_nil _ _)
  | cons i inps ih =>
    obtain ⟨⟨hirst, hivalid, hilast⟩, hrest⟩ := List.forall_mem_cons.1 hbytes
    have hedge := clockEdge_of_byte hirst hreceived hivalid
    rw [takeByte_of_not_last hilast] at hedge
    rw [List.cons_append, clockEdges_cons hedge (by simp), ih (.inr rfl) hrest]
    simp

/-- The finishing edge without a byte is the `Load` of what has arrived. -/
theorem clockEdge_commits (hidle : s.loader = .idle) (hrst : final.rst = false) (hvalid : final.ldValid = false) :
    clockEdge final (s.setLoader (.committing bytes)) =
      .next ((load bytes s).1, { quiet with ldDone := true, ldErr := (load bytes s).2 }) := by
  rw [clockEdge_of_committing hrst (setLoader_loader s _), setLoader_setLoader, setLoader_of_loader_eq hidle, hvalid,
    if_neg Bool.false_ne_true, setLoader_of_loader_eq (load_loader hidle bytes)]

end Stream

/-- Settles O55: the stream's edges collect the bytes, and the finishing edge loads them. -/
theorem serialLoadIsLoad : Obligations.SerialLoadIsLoad := by
  intro s inps final last hidle hbytes hrst hvalid hlast hfrst hfvalid
  rw [clockEdges_stream (.inl ⟨rfl, hidle⟩) hbytes hrst hvalid hlast, List.nil_append,
    clockEdge_commits hidle hfrst hfvalid]

/-! ### The requests of one edge (R161) -/

/-- R158: the event on the emit port is the one the step appended. -/
theorem emitted_eq_some_iff {s t : State} (hstep : step s = .next t) (e : EmitEvent) :
    emitted s t = some e ↔ t.out = s.out ++ [e] := by
  rcases outputGrowsOnlyByOutputRegister s t hstep with hout | ⟨index, -, -, hout⟩
  · simp [emitted, hout]
  · simp [emitted, hout]

/-- Settles O56: one equation of the edge for each clause. -/
theorem resetWinsAndRunBeatsPreset : Obligations.ResetWinsAndRunBeatsPreset := by
  refine fun inp s => ⟨clockEdge_of_rst, fun hrst hidle hvalid => ?_⟩
  rw [clockEdge_of_idle hrst hidle hvalid]
  refine ⟨fun hrun t hstep => ⟨idleEdge_of_run hrun hstep, emitted_eq_some_iff hstep⟩,
    fun hrun hwe => ⟨fun h hrunning hsteps hj => ?_, fun hout => ?_⟩, idleEdge_of_no_request⟩
  · obtain ⟨t, hpreset, hwrites⟩ := presetGpr_writes_gpr h hrunning hsteps hj inp.dbgWdata
    exact ⟨t, idleEdge_of_preset hrun hwe hpreset, hwrites⟩
  · exact idleEdge_of_preset_refused hrun hwe (presetGpr_of_refused hout _)

/-! ### The continuous outputs (R161, R172) -/

theorem levels_dbg_of_lt {s : State} {addr : Word} (h : addr.toNat < s.cfg.nGpr) :
    (levels addr s).dbgRdata = s.gpr addr.toNat ∧ (levels addr s).dbgOor = false := by
  simp only [levels, hostReadGpr_of_lt h, (gprOk_iff _ _).2 h, Option.getD_some, Bool.not_true, and_self]

theorem levels_dbg_of_le {s : State} {addr : Word} (h : s.cfg.nGpr ≤ addr.toNat) :
    (levels addr s).dbgRdata = 0 ∧ (levels addr s).dbgOor = true := by
  have hok : gprOk s.cfg addr.toNat = false := decide_eq_false (Nat.not_lt.2 h)
  simp only [levels, hostReadGpr_of_le h, hok, Option.getD_none, Bool.not_false, and_self]

/-- Settles O57: the status port, IP and SP by definition, the addressed GPR on both sides of the bound. -/
theorem continuousOutputsFollowTheState : Obligations.ContinuousOutputsFollowTheState :=
  fun _ _ => ⟨rfl, rfl, rfl, rfl, levels_dbg_of_lt, levels_dbg_of_le⟩

end Sys2Proof.Machine
end

section
/-! The machine's own faults (R170 to R174): the table of reasons read along the tests of a step, what a faulting step
leaves alone, and the codes on the status port. -/

namespace Sys2Proof.Machine

open Sys2Proof

/-! ### The table of reasons, test by test (R171, R174) -/

section StepFault

variable {s : State}

theorem stepFault_of_ceiling (hceil : s.ceilingReached = true) : stepFault s = some .stepLimitExceeded := if_pos hceil

theorem stepFault_of_no_fetch (hceil : s.ceilingReached = false) (hfetch : s.fetch = none) :
    stepFault s = some .instructionPointerOutOfBounds := by
  have hip : s.prog.length ≤ s.ip.toNat := List.getElem?_eq_none_iff.1 hfetch
  rw [stepFault, if_neg (Bool.eq_false_iff.1 hceil), if_pos hip]

theorem stepFault_of_fetch {i : Instr} (hceil : s.ceilingReached = false) (hfetch : s.fetch = some i) :
    stepFault s = instrFault i s := by
  rw [stepFault, if_neg (Bool.eq_false_iff.1 hceil), if_neg (Nat.not_le.2 (fetch_some hfetch)), hfetch,
    Option.bind_some]

/-- The step counter is in no row of an instruction. -/
@[simp] theorem instrFault_countStep (i : Instr) : instrFault i s.countStep = instrFault i s := rfl

end StepFault

/-- Raising a fault is left to the tests of R171: an instruction that completes never does it. -/
theorem effect_not_faulted {s : State} (hrun : s.status = .running) (i : Instr) (r : FaultReason) :
    (effect i s).status ≠ .faulted r := by
  by_cases hhalt : i = .halt
  · subst hhalt
    simp [effect]
  · simp [effect_status_of_ne_halt hhalt, hrun]

/-- Settles O28: `step` and `stepFault` come to the same answer at each test of R174. -/
theorem stepFaultsExactlyByTheTable : Obligations.StepFaultsExactlyByTheTable := by
  intro s h hrun
  cases hceil : s.ceilingReached with
  | true => exact ⟨_, step_of_ceiling hrun hceil, fun r => by simp [stepFault_of_ceiling hceil]⟩
  | false =>
    cases hfetch : s.fetch with
    | none => exact ⟨_, step_of_no_fetch hrun hceil hfetch, fun r => by simp [stepFault_of_no_fetch hceil hfetch]⟩
    | some i =>
      rw [step_of_fetch hrun hceil hfetch, stepFault_of_fetch hceil hfetch, ← instrFault_countStep]
      cases hfault : instrFault i s.countStep with
      | some r => exact ⟨_, exec_of_fault hfault, fun r' => by simp⟩
      | none =>
        have hcompletes := exec_of_completes hfault h.sp
        exact ⟨_, hcompletes, fun r => by simp [effect_not_faulted (s := s.countStep) hrun]⟩

/-- Settles O29: the two outcomes that fault set only `status` and, once counted, `steps`. -/
theorem faultChangesOnlyStatusAndSteps : Obligations.FaultChangesOnlyStatusAndSteps := by
  intro s t r hrun hstep hfaulted
  cases step_outcome hstep with
  | absorbs =>
    rw [hrun] at hfaulted
    cases hfaulted
  | faultsUncounted => exact ⟨rfl, rfl, rfl, rfl, rfl, rfl, .inl rfl⟩
  | faultsCounted => exact ⟨rfl, rfl, rfl, rfl, rfl, rfl, .inr rfl⟩
  | completes _ _ i => exact absurd hfaulted (effect_not_faulted (s := s.countStep) hrun i r)

/-! ### The codes on the status port (R172) -/

theorem reasonCode_ne_zero (r : FaultReason) : reasonCode r ≠ 0 := by
  cases r <;> decide

/-- Only a faulted status has a reason to report, and its code is not 0. -/
theorem reasonPort_eq_zero_iff (st : Status) : reasonPort st = 0 ↔ statePort st ≠ 2 := by
  cases st with
  | running => decide
  | halted => decide
  | faulted r => exact iff_of_false (reasonCode_ne_zero r) (not_not_intro rfl)

theorem statePort_ne_three (st : Status) : statePort st ≠ 3 := by
  cases st with
  | running => decide
  | halted => decide
  | faulted r => exact (by decide : (2 : BitVec 2) ≠ 3)

/-- Settles O54: the codes by definition, 0 and 3 by the cases of the status. -/
theorem statusPortCodes : Obligations.StatusPortCodes :=
  ⟨rfl, rfl, fun _ => rfl, rfl, rfl, rfl, rfl, rfl, reasonPort_eq_zero_iff, statePort_ne_three⟩

end Sys2Proof.Machine
end

section
/-! The step of a machine that was given no program (R201, decision D14). -/

namespace Sys2Proof.Machine

open Sys2Proof

/-- R201: the power-on state holds the empty program, so not even instruction 0 is there to fetch. -/
theorem powerOn_fetch (cfg : Config) : (State.powerOn cfg).fetch = none := initial_fetch cfg []

/-- Settles O32: the power-on state is Running and below its limit, so the missing fetch decides the step. -/
theorem powerOnStepFaults : Obligations.PowerOnStepFaults :=
  fun cfg hlimit => step_of_no_fetch rfl (initial_ceilingReached hlimit []) (powerOn_fetch cfg)

end Sys2Proof.Machine
end
